-- ==== Sys2Proof/Word.lean ====
section
/-! DEFINITION. The machine's word (every register, memory cell, opcode byte and operand byte is an unsigned
8-bit value, spec/00_scope.md R11) and the names of its eight registers (spec/10_state.md R20). -/

namespace Sys2Proof

/-- An unsigned 8-bit value; bit 0 is the least significant bit (R11). It is also an address (R31, R40). -/
abbrev Byte := BitVec 8

/-- The general registers `R0` to `R7` (R20). `r7` is SP, `r6` is IS, `r5` is IM (R22 to R24): ordinary
registers to every instruction (R21). -/
inductive Reg
  | r0 | r1 | r2 | r3 | r4 | r5 | r6 | r7
  deriving DecidableEq, Repr

end Sys2Proof
end

