-- ==== Sys2Proof/Config.lean ====
section
/-! DEFINITION. The parameters the spec leaves to the model (spec/00_scope.md R6): BOUNDS_POLICY and
OPCODE_MAP. The default values stand in Decode.lean. TICK and LAUNCH_IMAGE are inputs, held in
Machine/State.lean and given to Machine/Reset.lean. -/

namespace Sys2Proof

/-- BOUNDS_POLICY (R6, R43, R92): what address arithmetic that leaves 0 to 255 does. -/
inductive BoundsPolicy
  /-- the cycle raises a `BoundsFault` (the default) -/
  | fault
  /-- the value is reduced modulo 256 and the machine goes on -/
  | wrap
  deriving DecidableEq, Repr

/-- The 28 mnemonics of spec/opcode_table.json (spec/30_encoding.md R66): what an opcode byte alone names. -/
inductive Op
  | hlt | ldi | prn | pra | ld | st | push | pop | call | ret | jmp | jeq | jne | iret
  | add | sub | mul | div | mod | inc | dec | cmp | and | not | or | xor | shl | shr
  deriving DecidableEq, Repr

/-- OPCODE_MAP (R6, R66, decision D7): the opcode byte of each mnemonic. -/
structure OpcodeMap where
  hlt : Byte
  ldi : Byte
  prn : Byte
  pra : Byte
  ld : Byte
  st : Byte
  push : Byte
  pop : Byte
  call : Byte
  ret : Byte
  jmp : Byte
  jeq : Byte
  jne : Byte
  iret : Byte
  add : Byte
  sub : Byte
  mul : Byte
  div : Byte
  mod : Byte
  inc : Byte
  dec : Byte
  cmp : Byte
  and : Byte
  not : Byte
  or : Byte
  xor : Byte
  shl : Byte
  shr : Byte
  deriving DecidableEq, Repr

/-- What is fixed for a run (spec/10_state.md R34). -/
structure Config where
  policy : BoundsPolicy
  opcodes : OpcodeMap
  deriving DecidableEq, Repr

end Sys2Proof
end

