-- ==== Sys2Proof/Syntax.lean ====
section
/-! DEFINITION. The instructions: one constructor per row of spec/opcode_table.json (spec/30_encoding.md R66). -/

namespace Sys2Proof

/-- An instruction with its operand bytes as they stand in memory (formats OP, OP_R, OP_RR, OP_RI of R64).
A register operand is the whole operand byte: a byte above 7 names no register, and that is a fault of the
recognised instruction when it executes (R65, R86), not another instruction. -/
inductive Instr
  /-- HLT (R150) -/
  | hlt
  /-- LDI a,i (R120) -/
  | ldi (a imm : Byte)
  /-- PRN a (R151) -/
  | prn (a : Byte)
  /-- PRA a (R152) -/
  | pra (a : Byte)
  /-- LD a,b (R121) -/
  | ld (a b : Byte)
  /-- ST a,b (R122) -/
  | st (a b : Byte)
  /-- PUSH a (R132) -/
  | push (a : Byte)
  /-- POP a (R133) -/
  | pop (a : Byte)
  /-- CALL a (R140) -/
  | call (a : Byte)
  /-- RET (R141) -/
  | ret
  /-- JMP a (R142) -/
  | jmp (a : Byte)
  /-- JEQ a (R143) -/
  | jeq (a : Byte)
  /-- JNE a (R144) -/
  | jne (a : Byte)
  /-- IRET (R175) -/
  | iret
  /-- ADD a,b (R101) -/
  | add (a b : Byte)
  /-- SUB a,b (R102) -/
  | sub (a b : Byte)
  /-- MUL a,b (R103) -/
  | mul (a b : Byte)
  /-- DIV a,b (R104) -/
  | div (a b : Byte)
  /-- MOD a,b (R105) -/
  | mod (a b : Byte)
  /-- INC a (R113) -/
  | inc (a : Byte)
  /-- DEC a (R114) -/
  | dec (a : Byte)
  /-- CMP a,b (R107) -/
  | cmp (a b : Byte)
  /-- AND a,b (R108) -/
  | and (a b : Byte)
  /-- NOT a (R111) -/
  | not (a : Byte)
  /-- OR a,b (R109) -/
  | or (a b : Byte)
  /-- XOR a,b (R110) -/
  | xor (a b : Byte)
  /-- SHL a,b (R112) -/
  | shl (a b : Byte)
  /-- SHR a,b (R115) -/
  | shr (a b : Byte)
  deriving DecidableEq, Repr

end Sys2Proof
end

