-- ==== Sys2Proof/WellFormed.lean ====
section
/-! DEFINITION. Which instructions are well formed: every operand byte used as a register number has zeros in
bits 7 to 3 (spec/30_encoding.md R64, R65). LDI's second operand is a value and is free (R67, R86). -/

namespace Sys2Proof

/-- The operand bytes an instruction uses as register numbers, operand_a first (R64, R65). -/
def Instr.regOperands : Instr → List Byte
  | .hlt | .ret | .iret => []
  | .ldi a _ | .prn a | .pra a | .push a | .pop a | .call a | .jmp a | .jeq a | .jne a | .inc a | .dec a
  | .not a => [a]
  | .ld a b | .st a b | .add a b | .sub a b | .mul a b | .div a b | .mod a b | .cmp a b | .and a b | .or a b
  | .xor a b | .shl a b | .shr a b => [a, b]

/-- The byte names one of the eight registers: bits 7 to 3 are 0 (R65). -/
def namesRegister (b : Byte) : Bool := b.extractLsb' 3 5 == 0#5

/-- Every register operand names a register. -/
def Instr.wf (i : Instr) : Bool := i.regOperands.all namesRegister

end Sys2Proof
end

