-- ==== Sys2Proof/Decode.lean ====
section
/-! DEFINITION. The opcode byte's bit fields, the default OPCODE_MAP, the decoder and, after it, the encoder
(spec/30_encoding.md R60 to R70). -/

namespace Sys2Proof

/-! ## The opcode byte (R60 to R63) -/

/-- CNT, bits 7 to 6: the number of operand bytes that follow the opcode byte (R60, R61). -/
def cnt (ir : Byte) : Nat := (ir.extractLsb' 6 2).toNat

/-- The instruction length in bytes, opcode included: CNT + 1, for every byte value (R61, R68, D8). -/
def instrLen (ir : Byte) : Nat := cnt ir + 1

/-- ALU, bit 5: the opcode is routed to the ALU (R63). -/
def aluBit (ir : Byte) : Bool := ir.getLsbD 5

/-- SETS_PC, bit 4: the instruction writes PC itself (R62). -/
def setsPcBit (ir : Byte) : Bool := ir.getLsbD 4

/-! ## OPCODE_MAP (R66) -/

/-- The 28 mnemonics in the order of R66. -/
def Op.all : List Op :=
  [.hlt, .ldi, .prn, .pra, .ld, .st, .push, .pop, .call, .ret, .jmp, .jeq, .jne, .iret] ++
  [.add, .sub, .mul, .div, .mod, .inc, .dec, .cmp, .and, .not, .or, .xor, .shl, .shr]

/-- The CNT column of R66: the operand bytes of each instruction. -/
def Op.cnt : Op → Nat
  | .hlt | .ret | .iret => 0
  | .prn | .pra | .push | .pop | .call | .jmp | .jeq | .jne | .inc | .dec | .not => 1
  | .ldi | .ld | .st | .add | .sub | .mul | .div | .mod | .cmp | .and | .or | .xor | .shl | .shr => 2

/-- The ALU column of R66 (R63): the 14 ALU instructions. -/
def Op.isAlu : Op → Bool
  | .add | .sub | .mul | .div | .mod | .inc | .dec | .cmp | .and | .not | .or | .xor | .shl | .shr => true
  | .hlt | .ldi | .prn | .pra | .ld | .st | .push | .pop | .call | .ret | .jmp | .jeq | .jne | .iret => false

/-- The SETS_PC column of R66 (R62): CALL, RET, JMP, JEQ, JNE and IRET, whose own rules write PC. -/
def Op.setsPc : Op → Bool
  | .call | .ret | .jmp | .jeq | .jne | .iret => true
  | .hlt | .ldi | .prn | .pra | .ld | .st | .push | .pop | .add | .sub | .mul | .div | .mod | .inc | .dec
  | .cmp | .and | .not | .or | .xor | .shl | .shr => false

/-- The byte an OPCODE_MAP gives a mnemonic. -/
def OpcodeMap.byte (m : OpcodeMap) : Op → Byte
  | .hlt => m.hlt
  | .ldi => m.ldi
  | .prn => m.prn
  | .pra => m.pra
  | .ld => m.ld
  | .st => m.st
  | .push => m.push
  | .pop => m.pop
  | .call => m.call
  | .ret => m.ret
  | .jmp => m.jmp
  | .jeq => m.jeq
  | .jne => m.jne
  | .iret => m.iret
  | .add => m.add
  | .sub => m.sub
  | .mul => m.mul
  | .div => m.div
  | .mod => m.mod
  | .inc => m.inc
  | .dec => m.dec
  | .cmp => m.cmp
  | .and => m.and
  | .not => m.not
  | .or => m.or
  | .xor => m.xor
  | .shl => m.shl
  | .shr => m.shr

/-- What every OPCODE_MAP must keep (R66): CNT and ALU as the table's columns, and distinct bytes. For the six
instructions that write PC themselves SETS_PC may be either (R66); for the other 22 it is 0 (R6, R62; R100, R123,
R132, R133, R150 to R152): notes/assumptions/6. -/
def OpcodeMap.legal (m : OpcodeMap) : Bool :=
  Op.all.all (fun o => Sys2Proof.cnt (m.byte o) == o.cnt && aluBit (m.byte o) == o.isAlu &&
    (o.setsPc || !setsPcBit (m.byte o))) &&
  decide (Op.all.map m.byte).Nodup

/-- The default OPCODE_MAP (R66). LDI, PRN and HLT are from the source; the other 25 bytes are PRESUMED by the
spec itself (general knowledge of the family, spec/93_implementation_defined.md G2): notes/assumptions/5. -/
def OpcodeMap.default : OpcodeMap where
  hlt := 0b00000001#8
  ldi := 0b10000010#8
  prn := 0b01000111#8
  pra := 0b01001000#8
  ld := 0b10000011#8
  st := 0b10000100#8
  push := 0b01000101#8
  pop := 0b01000110#8
  call := 0b01010000#8
  ret := 0b00010001#8
  jmp := 0b01010100#8
  jeq := 0b01010101#8
  jne := 0b01010110#8
  iret := 0b00010011#8
  add := 0b10100000#8
  sub := 0b10100001#8
  mul := 0b10100010#8
  div := 0b10100011#8
  mod := 0b10100100#8
  inc := 0b01100101#8
  dec := 0b01100110#8
  cmp := 0b10100111#8
  and := 0b10101000#8
  not := 0b01101001#8
  or := 0b10101010#8
  xor := 0b10101011#8
  shl := 0b10101100#8
  shr := 0b10101101#8

/-- The configuration a run has unless it is given another (R6): BOUNDS_POLICY = fault and the default map. -/
def Config.default : Config where
  policy := .fault
  opcodes := OpcodeMap.default

/-! ## The decoder (R64, R65, R68, R82) -/

/-- The instruction an opcode byte names, `none` for the unrecognised ones (R68, R69). -/
def decodeOp (m : OpcodeMap) (ir : Byte) : Option Op := Op.all.find? (fun o => m.byte o == ir)

/-- The instruction with its operand bytes: byte 1 is operand_a, byte 2 is operand_b (R64). An operand the
format does not have is ignored. -/
def Op.instr : Op → Byte → Byte → Instr
  | .hlt, _, _ => .hlt
  | .ldi, a, b => .ldi a b
  | .prn, a, _ => .prn a
  | .pra, a, _ => .pra a
  | .ld, a, b => .ld a b
  | .st, a, b => .st a b
  | .push, a, _ => .push a
  | .pop, a, _ => .pop a
  | .call, a, _ => .call a
  | .ret, _, _ => .ret
  | .jmp, a, _ => .jmp a
  | .jeq, a, _ => .jeq a
  | .jne, a, _ => .jne a
  | .iret, _, _ => .iret
  | .add, a, b => .add a b
  | .sub, a, b => .sub a b
  | .mul, a, b => .mul a b
  | .div, a, b => .div a b
  | .mod, a, b => .mod a b
  | .inc, a, _ => .inc a
  | .dec, a, _ => .dec a
  | .cmp, a, b => .cmp a b
  | .and, a, b => .and a b
  | .not, a, _ => .not a
  | .or, a, b => .or a b
  | .xor, a, b => .xor a b
  | .shl, a, b => .shl a b
  | .shr, a, b => .shr a b

/-- Why a byte sequence gives no instruction. -/
inductive DecodeError
  /-- there is no opcode byte -/
  | noBytes
  /-- the opcode byte is one of the unrecognised ones (R69) -/
  | unrecognised (ir : Byte)
  /-- the instruction is recognised and an operand byte it has is missing (R83) -/
  | truncated (op : Op)
  deriving DecidableEq, Repr

/-- Take `n` operand bytes (0, 1 or 2); an operand that is not taken is given as 0 and is not used. -/
def takeOperands : Nat → List Byte → Option (Byte × Byte × List Byte)
  | 0, rest => some (0, 0, rest)
  | 1, a :: rest => some (a, 0, rest)
  | 2, a :: b :: rest => some (a, b, rest)
  | _, _ => none

/-- The instruction at the head of a byte sequence and the bytes after it. The length comes from bits 7 to 6 of
the first byte alone (R61, R70), the instruction from the whole first byte (R68). Total on any bytes. -/
def decode (m : OpcodeMap) : List Byte → Except DecodeError (Instr × List Byte)
  | [] => .error .noBytes
  | ir :: rest =>
    match decodeOp m ir with
    | none => .error (.unrecognised ir)
    | some op =>
      match takeOperands (cnt ir) rest with
      | none => .error (.truncated op)
      | some (a, b, rest') => .ok (op.instr a b, rest')

/-! ## The encoder (R64, R66) -/

/-- The byte whose low three bits are the register's number and whose bits 7 to 3 are 0 (R64, R65). -/
def Reg.byte : Reg → Byte
  | .r0 => 0 | .r1 => 1 | .r2 => 2 | .r3 => 3 | .r4 => 4 | .r5 => 5 | .r6 => 6 | .r7 => 7

/-- The mnemonic of an instruction. -/
def Instr.op : Instr → Op
  | .hlt => .hlt
  | .ldi _ _ => .ldi
  | .prn _ => .prn
  | .pra _ => .pra
  | .ld _ _ => .ld
  | .st _ _ => .st
  | .push _ => .push
  | .pop _ => .pop
  | .call _ => .call
  | .ret => .ret
  | .jmp _ => .jmp
  | .jeq _ => .jeq
  | .jne _ => .jne
  | .iret => .iret
  | .add _ _ => .add
  | .sub _ _ => .sub
  | .mul _ _ => .mul
  | .div _ _ => .div
  | .mod _ _ => .mod
  | .inc _ => .inc
  | .dec _ => .dec
  | .cmp _ _ => .cmp
  | .and _ _ => .and
  | .not _ => .not
  | .or _ _ => .or
  | .xor _ _ => .xor
  | .shl _ _ => .shl
  | .shr _ _ => .shr

/-- The bytes of an instruction, lowest address first (R44, R64, R66). -/
def encode (m : OpcodeMap) : Instr → List Byte
  | .hlt => [m.hlt]
  | .ldi a i => [m.ldi, a, i]
  | .prn a => [m.prn, a]
  | .pra a => [m.pra, a]
  | .ld a b => [m.ld, a, b]
  | .st a b => [m.st, a, b]
  | .push a => [m.push, a]
  | .pop a => [m.pop, a]
  | .call a => [m.call, a]
  | .ret => [m.ret]
  | .jmp a => [m.jmp, a]
  | .jeq a => [m.jeq, a]
  | .jne a => [m.jne, a]
  | .iret => [m.iret]
  | .add a b => [m.add, a, b]
  | .sub a b => [m.sub, a, b]
  | .mul a b => [m.mul, a, b]
  | .div a b => [m.div, a, b]
  | .mod a b => [m.mod, a, b]
  | .inc a => [m.inc, a]
  | .dec a => [m.dec, a]
  | .cmp a b => [m.cmp, a, b]
  | .and a b => [m.and, a, b]
  | .not a => [m.not, a]
  | .or a b => [m.or, a, b]
  | .xor a b => [m.xor, a, b]
  | .shl a b => [m.shl, a, b]
  | .shr a b => [m.shr, a, b]

/-! ## The opcode table's words -/

/-- The bytes of a word numbered as spec/opcode_table.json numbers it: bit 0 is the least significant bit of the
first byte, the second byte is bits 15 to 8; every bit from `nbits` up is 0. Three bytes, the longest length. -/
def tableBytes (nbits w : Nat) : List Byte :=
  let v := w % 2 ^ nbits
  [BitVec.ofNat 8 v, BitVec.ofNat 8 (v / 256), BitVec.ofNat 8 (v / 65536)]

/-- What the decoder, under the default OPCODE_MAP, reads from a word of the opcode table. -/
def decodeTableWord (nbits w : Nat) : Option Instr :=
  match decode OpcodeMap.default (tableBytes nbits w) with
  | .ok (i, _) => some i
  | .error _ => none

end Sys2Proof
end

