-- ==== Sys2Proof/Machine/State.lean ====
section
/-! DEFINITION. The machine's state as plain data (spec/10_state.md R20 to R37), the faults and refusals, and the
state after reset (R35, R190). -/

namespace Sys2Proof.Machine

/-- The kinds of `BoundsFault` (spec/10_state.md R29, spec/60_exceptions.md R162). -/
inductive BoundsKind
  /-- an operand byte lies above 0xFF (R83) -/
  | operandFetch
  /-- a sequential advance, or CALL's return address, exceeds 0xFF (R89, R140) -/
  | pcOverflow
  /-- a push with SP = 0x00 (R130) -/
  | stackPush
  /-- a pop's increment with SP = 0xFF (R131) -/
  | stackPop
  deriving DecidableEq, Repr

/-- The machine's faults (R29, R160 to R163): the values of the FAULT status other than `None`. The spec fixes
the whole state a raise leaves, so a raise is a NEXT state with RUN = 0 and this value in `State.fault`
(notes/assumptions/1); no step answers `Host.Outcome.fault`. -/
inductive Fault
  /-- raised by DIV and MOD when the second operand register holds 0 (R161); safe: the machine stops as the spec
  says -/
  | divideByZero
  /-- raised only under BOUNDS_POLICY = fault by operand fetch, the end-of-cycle check, CALL, pushes and pops
  (R162); safe: the machine stops as the spec says -/
  | boundsFault (kind : BoundsKind)
  /-- raised by every instruction with a register operand whose byte is above 7 (R163); safe: the machine stops
  as the spec says -/
  | regIndexFault (byte : Byte)
  deriving DecidableEq, Repr

/-- Why no meaning is given. No step of this model answers one. -/
inductive Refusal
  /-- an arm of `exec` whose instruction has no meaning yet; no arm of this model is one; safe -/
  | notModelled (mnemonic : String)
  /-- raised by `State.launch` for a launch image of more than 256 bytes: the machine is not started (R192, D6);
  safe -/
  | launchImageTooLong
  deriving DecidableEq, Repr

/-- An event on the output port (spec/00_scope.md R10): one per executed PRN or PRA. -/
inductive OutEvent
  /-- `Out(PRN, v)` (R151) -/
  | prn (v : Byte)
  /-- `Out(PRA, v)` (R152) -/
  | pra (v : Byte)
  deriving DecidableEq, Repr

/-- An event on the diagnostic port (R10). -/
inductive DiagEvent
  /-- `Diag(UnknownOpcode, ir, addr)` (R87, R164) -/
  | unknownOpcode (ir addr : Byte)
  deriving DecidableEq, Repr

/-- The register file: eight 8-bit cells (R20). Read and written through `RegFile.read` and `RegFile.write`. -/
structure RegFile where
  x0 : Byte
  x1 : Byte
  x2 : Byte
  x3 : Byte
  x4 : Byte
  x5 : Byte
  x6 : Byte
  x7 : Byte
  deriving DecidableEq, Repr

/-- Memory: 256 cells of 8 bits (R31, R40), as the list of the cells whose content is not 0x00. -/
abbrev Memory := List Host.Cell

/-- What an unlisted cell reads as: 0x00, the reset content the spec gives (R35). -/
def unlistedByte : Byte := 0

/-- The canonical form of the cells from address `lo` up: addresses strictly rising and below 256, no cell equal
to what an unlisted one reads as. -/
def Memory.wfFrom (lo : Nat) : Memory → Bool
  | [] => true
  | (a, v) :: rest => decide (lo ≤ a) && decide (a < 256) && v != unlistedByte && Memory.wfFrom (a + 1) rest

/-- The canonical form: equal memories are equal data. -/
def Memory.wf (m : Memory) : Bool := Memory.wfFrom 0 m

/-- The state of the machine. -/
structure State where
  /-- `x[0]` to `x[7]` (R20 to R24): R7 is SP, R6 is IS, R5 is IM -/
  regs : RegFile
  /-- the program counter, 8 bits (R25) -/
  pc : Byte
  /-- the flags byte: bit 0 Equal, bit 1 Greater, bit 2 Less (R26) -/
  fl : Byte
  /-- the interrupts-enabled bit (R27) -/
  ie : Bool
  /-- the running bit (R28) -/
  run : Bool
  /-- the fault status; `none` is the spec's `None` (R29) -/
  fault : Option Fault
  /-- the 256-byte memory (R31) -/
  mem : Memory
  /-- the cycle-local PC-overflow carry (R33, R84, R89); false between cycles: notes/assumptions/7 -/
  ovf : Bool
  /-- the output port's history, oldest first (R10, R34) -/
  out : List OutEvent
  /-- the diagnostic port's history, oldest first (R10, R34) -/
  diag : List DiagEvent
  /-- the input TICK of the cycles to come (R6, R9), one Boolean a cycle; past its end no tick:
  notes/assumptions/3 -/
  ticks : List Bool
  /-- BOUNDS_POLICY and OPCODE_MAP, fixed for a run (R6, R34): notes/assumptions/4 -/
  config : Config
  deriving DecidableEq, Repr

/-- Right after reset with the empty launch image (R35, R190, R191). `ticks` and `config` are the model's own
fields: notes/assumptions/3 and 4. -/
def State.reset : State where
  regs := ⟨0, 0, 0, 0, 0, 0, 0, 0xF4⟩
  pc := 0
  fl := 0
  ie := true
  run := true
  fault := none
  mem := []
  ovf := false
  out := []
  diag := []
  ticks := []
  config := Config.default

end Sys2Proof.Machine
end

