-- ==== Sys2Proof/Machine/Ops.lean ====
section
/-! DEFINITION. The shared operations: registers, memory, PC, raising a fault, the stack, interrupt entry and the
return from it (spec/20_memory.md, spec/40_cycle.md, spec/43_stack.md, spec/60_exceptions.md). -/

namespace Sys2Proof.Machine

/-- `trunc8(v)`: `v mod 256` (R11). -/
def trunc8 (v : Nat) : Byte := BitVec.ofNat 8 v

/-! ## Registers (R20) -/

/-- The content of a register. -/
def RegFile.read (f : RegFile) : Reg → Byte
  | .r0 => f.x0 | .r1 => f.x1 | .r2 => f.x2 | .r3 => f.x3
  | .r4 => f.x4 | .r5 => f.x5 | .r6 => f.x6 | .r7 => f.x7

/-- The register file with one register replaced; no register is hardwired or aliased (R20). -/
def RegFile.write (f : RegFile) (r : Reg) (v : Byte) : RegFile :=
  match r with
  | .r0 => { f with x0 := v }
  | .r1 => { f with x1 := v }
  | .r2 => { f with x2 := v }
  | .r3 => { f with x3 := v }
  | .r4 => { f with x4 := v }
  | .r5 => { f with x5 := v }
  | .r6 => { f with x6 := v }
  | .r7 => { f with x7 := v }

/-- `x[r]` (R12). -/
def State.x (s : State) (r : Reg) : Byte := s.regs.read r

/-- `x[r] <- v` (R12). -/
def State.setX (s : State) (r : Reg) (v : Byte) : State := { s with regs := s.regs.write r v }

/-! ## Memory (R40 to R42) -/

/-- The content of the cell with number `a`. -/
def Memory.readAt : Memory → Nat → Byte
  | [], _ => unlistedByte
  | (k, w) :: rest, a => if k = a then w else Memory.readAt rest a

/-- The cells other than `a`. -/
def Memory.erase (m : Memory) (a : Nat) : Memory := m.filter (fun c => c.1 != a)

/-- The cells with one more, before the first cell above it. -/
def Memory.insert (a : Nat) (v : Byte) : Memory → Memory
  | [] => [(a, v)]
  | c :: rest => if a < c.1 then (a, v) :: c :: rest else c :: Memory.insert a v rest

/-- The cells with cell `a` set to `v`; a cell that holds what an unlisted one reads as is not listed. -/
def Memory.writeAt (m : Memory) (a : Nat) (v : Byte) : Memory :=
  if v = unlistedByte then m.erase a else Memory.insert a v (m.erase a)

/-- `MemRead(addr, 1)` (R41): it cannot fail and changes nothing. -/
def Memory.read (m : Memory) (addr : Byte) : Byte := Memory.readAt m addr.toNat

/-- `MemWrite(addr, 1, v)` (R42): it cannot fail and changes no other cell. -/
def Memory.write (m : Memory) (addr : Byte) (v : Byte) : Memory := Memory.writeAt m addr.toNat v

/-- Bytes stored at ascending addresses from `addr` (modulo 256). -/
def Memory.writeAll (m : Memory) (addr : Byte) : List Byte → Memory
  | [] => m
  | v :: rest => Memory.writeAll (m.write addr v) (addr + 1) rest

/-- `MemRead` on the machine's memory. -/
def State.load (s : State) (addr : Byte) : Byte := s.mem.read addr

/-- `MemWrite` on the machine's memory. -/
def State.store (s : State) (addr v : Byte) : State := { s with mem := s.mem.write addr v }

/-! ## The other fields -/

/-- `pc <- target` (R12). -/
def State.setPc (s : State) (target : Byte) : State := { s with pc := target }

/-- `FL <- v`, all 8 bits (R26). -/
def State.setFl (s : State) (v : Byte) : State := { s with fl := v }

/-- `IE <- v` (R27). -/
def State.setIe (s : State) (v : Bool) : State := { s with ie := v }

/-- `RUN <- 0` (R28). -/
def State.stop (s : State) : State := { s with run := false }

/-- `ovf <- v` (R84). -/
def State.setOvf (s : State) (v : Bool) : State := { s with ovf := v }

/-- `emit Out(..)`: the event is appended to the output port's history (R10, R13). -/
def State.emit (s : State) (e : OutEvent) : State := { s with out := s.out ++ [e] }

/-- `report Diag(..)`: the event is appended to the diagnostic port's history (R10, R13). -/
def State.report (s : State) (e : DiagEvent) : State := { s with diag := s.diag ++ [e] }

/-- This cycle's `tick` has been sampled (R9, R171): the rest is for the cycles to come. -/
def State.dropTick (s : State) : State := { s with ticks := s.ticks.tail }

/-! ## Raising a fault (R13, R160) -/

/-- The state a raise leaves: RUN is 0, FAULT is the fault, every earlier write stays, PC is not changed. -/
def State.raise (s : State) (f : Fault) : State := { s with run := false, fault := some f }

/-- What a piece of a cycle comes to: its value, or the state in which a raise ended the cycle (R160). -/
abbrev Raising (α : Type) := Except State α

/-- The next state of an instruction: the state it leaves, also where a raise ended it (R160). -/
def settle : Raising State → Host.Outcome State Fault Refusal
  | .ok s => .next s
  | .error s => .next s

/-- `if BOUNDS_POLICY = fault: raise BoundsFault(kind)`, and nothing under `wrap` (R43, R92). -/
def State.outOfBounds (s : State) (kind : BoundsKind) : Raising Unit :=
  match s.config.policy with
  | .fault => .error (s.raise (.boundsFault kind))
  | .wrap => .ok ()

/-! ## PC advance (R84) -/

/-- `advance_pc(A, n)` with A the present PC: the low 8 bits of the 9-bit sum, its carry in `ovf`. -/
def State.advancePc (s : State) (n : Nat) : State :=
  let sum := s.pc.toNat + n
  (s.setPc (trunc8 sum)).setOvf (decide (256 ≤ sum))

/-- `A`, the address of the instruction being executed (R81), from the PC that phase 6 left (R84): PC itself where
the instruction's byte has SETS_PC = 1, PC less the instruction's length where it has not. -/
def State.ownAddress (op : Op) (s : State) : Byte :=
  let ir := s.config.opcodes.byte op
  if setsPcBit ir then s.pc else s.pc - BitVec.ofNat 8 (instrLen ir)

/-- The state in which the own pseudocode of CALL, RET, JEQ, JNE or IRET starts, after the register check: PC is A
whatever SETS_PC is (R85, R66), and the overflow latch is as it was (notes/assumptions/20). -/
def State.begun (op : Op) (s : State) : State := s.setPc (s.ownAddress op)

/-! ## The stack (R130, R131) -/

/-- `sp_dec()` (R130). -/
def spDec (s : State) : Raising State := do
  if s.x .r7 = 0x00 then s.outOfBounds .stackPush
  return s.setX .r7 (trunc8 ((s.x .r7).toNat + 255))

/-- `push(v)` (R130): SP decrements before the write. -/
def push (v : Byte) (s : State) : Raising State := do
  let s ← spDec s
  return s.store (s.x .r7) v

/-- `sp_inc()` (R131). -/
def spInc (s : State) : Raising State := do
  if s.x .r7 = 0xFF then s.outOfBounds .stackPop
  return s.setX .r7 (trunc8 ((s.x .r7).toNat + 1))

/-- `pop()` (R131): the read precedes the increment and the cell keeps its content. -/
def pop (s : State) : Raising (Byte × State) := do
  let v := s.load (s.x .r7)
  let s ← spInc s
  return (v, s)

/-- Pushes of several values, the first one first. -/
def pushAll : List Byte → State → Raising State
  | [], s => .ok s
  | v :: rest, s => do
    let s ← push v s
    pushAll rest s

/-- `x[r] <- pop()` for several registers, the first one first. -/
def popAll : List Reg → State → Raising State
  | [], s => .ok s
  | r :: rest, s => do
    let (v, s) ← pop s
    popAll rest (s.setX r v)

/-! ## Taking an interrupt and returning from one (R173 to R175) -/

/-- The address of the interrupt vector cell (R5, R47). -/
def interruptVector : Byte := 0xF8

/-- The nine values interrupt entry pushes, in its order: PC, FL, R0 to R6 (R173). -/
def State.frame (s : State) : List Byte :=
  [s.pc, s.fl, s.x .r0, s.x .r1, s.x .r2, s.x .r3, s.x .r4, s.x .r5, s.x .r6]

/-- `interrupt_entry()` (R173): IE and the whole of IS are cleared first, so the saved R6 is 0x00; then the nine
pushes; then PC takes the content of the vector cell. -/
def interruptEntry (s : State) : Raising State := do
  let s := (s.setIe false).setX .r6 0x00
  let s ← pushAll s.frame s
  return s.setPc (s.load interruptVector)

/-- The registers a return pops, in its order: R6 down to R0 (R175). -/
def returnOrder : List Reg := [.r6, .r5, .r4, .r3, .r2, .r1, .r0]

/-- The return from an interrupt (R175): R6 down to R0, FL, PC, then IE is set. -/
def interruptReturn (s : State) : Raising State := do
  let s ← popAll returnOrder s
  let (fl, s) ← pop s
  let (pc, s) ← pop (s.setFl fl)
  return (s.setPc pc).setIe true

end Sys2Proof.Machine
end

