-- ==== Sys2Proof/Machine/Flags.lean ====
section
/-! DEFINITION. The flag computations (spec/10_state.md R26, spec/41_alu.md R107): CMP computes FL, JEQ and JNE
read bit 0 of it, and no other instruction computes a flag. -/

namespace Sys2Proof.Machine

/-- FL after comparing `x` with `y` as unsigned values: exactly one of Equal, Greater and Less (R107). -/
def compareFlags (x y : Byte) : Byte :=
  if x = y then 0b00000001
  else if y.toNat < x.toNat then 0b00000010
  else 0b00000100

/-- `FL.E`, bit 0 (R12, R26). -/
def State.flagE (s : State) : Bool := s.fl.getLsbD 0

/-- `FL.G`, bit 1 (R12, R26): no instruction reads it. -/
def State.flagG (s : State) : Bool := s.fl.getLsbD 1

/-- `FL.L`, bit 2 (R12, R26): no instruction reads it. -/
def State.flagL (s : State) : Bool := s.fl.getLsbD 2

end Sys2Proof.Machine
end

