-- ==== Sys2Proof/Machine/Operands.lean ====
section
/-! DEFINITION. The operand forms: register operands, LDI's immediate (which is the operand byte itself, R67) and
the one addressing mode, register indirect (spec/30_encoding.md R64 to R67, spec/42_data_move.md R124). -/

namespace Sys2Proof.Machine

/-- The register with a 3-bit number (R20). -/
def regNumbered (n : BitVec 3) : Reg :=
  match n.toNat with
  | 0 => .r0 | 1 => .r1 | 2 => .r2 | 3 => .r3 | 4 => .r4 | 5 => .r5 | 6 => .r6 | _ => .r7

/-- The register an operand byte names: `b[2:0]` when `b[7:3] = 0`, none otherwise (R65). -/
def regOf (b : Byte) : Option Reg :=
  if b.extractLsb' 3 5 = 0#5 then some (regNumbered (b.extractLsb' 0 3)) else none

/-- `reg(b)` (R13, R65): the register, or the cycle ends in `RegIndexFault(b)`. -/
def State.reg (s : State) (b : Byte) : Raising Reg :=
  match regOf b with
  | some r => .ok r
  | none => .error (s.raise (.regIndexFault b))

/-- The register operand check of an OP_R or OP_RI instruction, then its effect (R86). -/
def oneReg (a : Byte) (s : State) (effect : Reg → Raising State) : Raising State := do
  let ra ← s.reg a
  effect ra

/-- The register operand checks of an OP_RR instruction, operand_a first, then its effect (R65, R86). -/
def twoRegs (a b : Byte) (s : State) (effect : Reg → Reg → Raising State) : Raising State := do
  let ra ← s.reg a
  let rb ← s.reg b
  effect ra rb

/-- The effective address of a data access: the whole content of the register (R124). -/
def State.indirect (s : State) (r : Reg) : Byte := s.x r

/-- One operand byte of the instruction at PC (R83): the byte at `A + k`. -/
def State.fetchOperand (s : State) (k : Nat) : Raising Byte := do
  let addr := s.pc.toNat + k
  if 0xFF < addr then s.outOfBounds .operandFetch
  return s.load (trunc8 addr)

/-- The operand byte at `A + k` of an instruction of length `len` (R83); one it does not have is not fetched, and
is given as 0, which no instruction uses. -/
def State.operand (s : State) (len k : Nat) : Raising Byte :=
  if k < len then s.fetchOperand k else .ok 0

/-- The operand bytes of an instruction of length `len` at PC: operand_a, then operand_b (R83). -/
def State.fetchOperands (s : State) (len : Nat) : Raising (Byte × Byte) := do
  let a ← s.operand len 1
  let b ← s.operand len 2
  return (a, b)

end Sys2Proof.Machine
end

