-- ==== Sys2Proof/Machine/Alu.lean ====
section
/-! DEFINITION. The 14 ALU instructions (spec/41_alu.md R100 to R115). -/

namespace Sys2Proof.Machine

/-! ## The results, computed exactly and truncated once -/

/-- R101 -/
def aluAdd (x y : Byte) : Byte := trunc8 (x.toNat + y.toNat)

/-- R102 -/
def aluSub (x y : Byte) : Byte := trunc8 (x.toNat + 256 - y.toNat)

/-- R103 -/
def aluMul (x y : Byte) : Byte := trunc8 (x.toNat * y.toNat)

/-- R104, for a divisor that is not 0 -/
def aluDiv (x y : Byte) : Byte := trunc8 (x.toNat / y.toNat)

/-- R105, for a divisor that is not 0 -/
def aluMod (x y : Byte) : Byte := trunc8 (x.toNat % y.toNat)

/-- R113 -/
def aluInc (x : Byte) : Byte := trunc8 (x.toNat + 1)

/-- R114 -/
def aluDec (x : Byte) : Byte := trunc8 (x.toNat + 255)

/-- R108 -/
def aluAnd (x y : Byte) : Byte := x &&& y

/-- R109 -/
def aluOr (x y : Byte) : Byte := x ||| y

/-- R110 -/
def aluXor (x y : Byte) : Byte := x ^^^ y

/-- R111 -/
def aluNot (x : Byte) : Byte := ~~~x

/-- R112: the amount is the whole second value, not reduced modulo 8 (D18). -/
def aluShl (x n : Byte) : Byte := trunc8 (x.toNat <<< n.toNat)

/-- R115: logical (D18). -/
def aluShr (x n : Byte) : Byte := trunc8 (x.toNat >>> n.toNat)

/-! ## The forms (R100) -/

/-- A two-register ALU instruction: both registers are read, then `x[a]` is written. -/
def aluPair (f : Byte → Byte → Byte) (a b : Byte) (s : State) : Raising State :=
  twoRegs a b s fun ra rb => .ok (s.setX ra (f (s.x ra) (s.x rb)))

/-- A one-register ALU instruction. -/
def aluOne (f : Byte → Byte) (a : Byte) (s : State) : Raising State :=
  oneReg a s fun ra => .ok (s.setX ra (f (s.x ra)))

/-- DIV and MOD: a zero divisor raises `DivideByZero` and nothing is written (R104, R105, R161). -/
def aluDivide (f : Byte → Byte → Byte) (a b : Byte) (s : State) : Raising State :=
  twoRegs a b s fun ra rb =>
    if s.x rb = 0 then .error (s.raise .divideByZero) else .ok (s.setX ra (f (s.x ra) (s.x rb)))

/-! ## The instructions -/

/-- ADD a,b (R101) -/
def execAdd (a b : Byte) (s : State) : Host.Outcome State Fault Refusal := settle (aluPair aluAdd a b s)

/-- SUB a,b (R102) -/
def execSub (a b : Byte) (s : State) : Host.Outcome State Fault Refusal := settle (aluPair aluSub a b s)

/-- MUL a,b (R103) -/
def execMul (a b : Byte) (s : State) : Host.Outcome State Fault Refusal := settle (aluPair aluMul a b s)

/-- DIV a,b (R104) -/
def execDiv (a b : Byte) (s : State) : Host.Outcome State Fault Refusal := settle (aluDivide aluDiv a b s)

/-- MOD a,b (R105) -/
def execMod (a b : Byte) (s : State) : Host.Outcome State Fault Refusal := settle (aluDivide aluMod a b s)

/-- INC a (R113) -/
def execInc (a : Byte) (s : State) : Host.Outcome State Fault Refusal := settle (aluOne aluInc a s)

/-- DEC a (R114) -/
def execDec (a : Byte) (s : State) : Host.Outcome State Fault Refusal := settle (aluOne aluDec a s)

/-- CMP a,b (R107): FL is written, no register is. -/
def execCmp (a b : Byte) (s : State) : Host.Outcome State Fault Refusal :=
  settle (twoRegs a b s fun ra rb => .ok (s.setFl (compareFlags (s.x ra) (s.x rb))))

/-- AND a,b (R108) -/
def execAnd (a b : Byte) (s : State) : Host.Outcome State Fault Refusal := settle (aluPair aluAnd a b s)

/-- NOT a (R111) -/
def execNot (a : Byte) (s : State) : Host.Outcome State Fault Refusal := settle (aluOne aluNot a s)

/-- OR a,b (R109) -/
def execOr (a b : Byte) (s : State) : Host.Outcome State Fault Refusal := settle (aluPair aluOr a b s)

/-- XOR a,b (R110) -/
def execXor (a b : Byte) (s : State) : Host.Outcome State Fault Refusal := settle (aluPair aluXor a b s)

/-- SHL a,b (R112) -/
def execShl (a b : Byte) (s : State) : Host.Outcome State Fault Refusal := settle (aluPair aluShl a b s)

/-- SHR a,b (R115) -/
def execShr (a b : Byte) (s : State) : Host.Outcome State Fault Refusal := settle (aluPair aluShr a b s)

end Sys2Proof.Machine
end

