-- ==== Sys2Proof/Machine/Control.lean ====
section
/-! DEFINITION. CALL, RET, JMP, JEQ and JNE (spec/44_control_transfer.md R140 to R145). Their rules are written in
terms of A, the instruction's own address: `State.begun` (R85, R145). -/

namespace Sys2Proof.Machine

/-- CALL's return address `A + 2`, PC being A, or `BoundsFault(PcOverflow)` (R140). -/
def returnAddress (s : State) : Raising Byte := do
  let ret := s.pc.toNat + 2
  if 0xFF < ret then s.outOfBounds .pcOverflow
  return trunc8 ret

/-- CALL a (R140): `x[a]` is read after the push (D19). -/
def execCall (a : Byte) (s : State) : Host.Outcome State Fault Refusal :=
  settle (oneReg a s fun ra => do
    let s := s.begun .call
    let ret ← returnAddress s
    let s ← push ret s
    return s.setPc (s.x ra))

/-- RET (R141) -/
def execRet (s : State) : Host.Outcome State Fault Refusal :=
  settle (do
    let (target, s) ← pop (s.begun .ret)
    return s.setPc target)

/-- JMP a (R142) -/
def execJmp (a : Byte) (s : State) : Host.Outcome State Fault Refusal :=
  settle (oneReg a s fun ra => .ok (s.setPc (s.x ra)))

/-- A conditional jump: to `x[a]` when taken, else `advance_pc(A, 2)` (R143, R144). -/
def branch (op : Op) (taken : Bool) (a : Byte) (s : State) : Raising State :=
  oneReg a s fun ra => .ok (if taken then s.setPc (s.x ra) else (s.begun op).advancePc 2)

/-- JEQ a (R143): taken when `FL[0] = 1`. -/
def execJeq (a : Byte) (s : State) : Host.Outcome State Fault Refusal := settle (branch .jeq s.flagE a s)

/-- JNE a (R144): taken when `FL[0] = 0`. -/
def execJne (a : Byte) (s : State) : Host.Outcome State Fault Refusal := settle (branch .jne (!s.flagE) a s)

end Sys2Proof.Machine
end

