-- ==== Sys2Proof/Machine/DataMove.lean ====
section
/-! DEFINITION. LDI, LD and ST (spec/42_data_move.md R120 to R124). -/

namespace Sys2Proof.Machine

/-- LDI a,i (R120): the immediate is the operand byte. -/
def execLdi (a imm : Byte) (s : State) : Host.Outcome State Fault Refusal :=
  settle (oneReg a s fun ra => .ok (s.setX ra imm))

/-- LD a,b (R121): `x[b]` is the address, read before `x[a]` is written. -/
def execLd (a b : Byte) (s : State) : Host.Outcome State Fault Refusal :=
  settle (twoRegs a b s fun ra rb => .ok (s.setX ra (s.load (s.indirect rb))))

/-- ST a,b (R122): `x[a]` is the address and `x[b]` the data. -/
def execSt (a b : Byte) (s : State) : Host.Outcome State Fault Refusal :=
  settle (twoRegs a b s fun ra rb => .ok (s.store (s.indirect ra) (s.x rb)))

end Sys2Proof.Machine
end

