-- ==== Sys2Proof/Machine/Stack.lean ====
section
/-! DEFINITION. PUSH and POP (spec/43_stack.md R132, R133). -/

namespace Sys2Proof.Machine

/-- PUSH a (R132): `x[a]` is read after the decrement, so PUSH R7 stores the decremented SP (D19). -/
def execPush (a : Byte) (s : State) : Host.Outcome State Fault Refusal :=
  settle (oneReg a s fun ra => do
    let s ← spDec s
    return s.store (s.x .r7) (s.x ra))

/-- POP a (R133): `x[a]` is written before the increment, which applies to `x[7]` as it then stands (D19). -/
def execPop (a : Byte) (s : State) : Host.Outcome State Fault Refusal :=
  settle (oneReg a s fun ra => spInc (s.setX ra (s.load (s.x .r7))))

end Sys2Proof.Machine
end

