-- ==== Sys2Proof/Machine/System.lean ====
section
/-! DEFINITION. HLT, PRN and PRA (spec/45_system_io.md R150 to R152) and IRET (spec/60_exceptions.md R175). -/

namespace Sys2Proof.Machine

/-- HLT (R150): RUN is cleared and FAULT stays as it is. -/
def execHlt (s : State) : Host.Outcome State Fault Refusal := settle (.ok s.stop)

/-- PRN a (R151) -/
def execPrn (a : Byte) (s : State) : Host.Outcome State Fault Refusal :=
  settle (oneReg a s fun ra => .ok (s.emit (.prn (s.x ra))))

/-- PRA a (R152) -/
def execPra (a : Byte) (s : State) : Host.Outcome State Fault Refusal :=
  settle (oneReg a s fun ra => .ok (s.emit (.pra (s.x ra))))

/-- IRET (R175): PC is A until the last pop, so a fault leaves A. -/
def execIret (s : State) : Host.Outcome State Fault Refusal := settle (interruptReturn (s.begun .iret))

end Sys2Proof.Machine
end

