-- ==== Sys2Proof/Machine/Cycle.lean ====
section
/-! DEFINITION. One cycle of the control unit (spec/40_cycle.md R80 to R92): interrupt check, timer check, fetch,
decode, operand fetch, PC advance, dispatch and execute, end-of-cycle check. -/

namespace Sys2Proof.Machine

/-! ## Phases 1 and 2 (R171, R172) -/

/-- `IM & IS`: the sources that are both raised and unmasked (R172). -/
def State.pending (s : State) : Byte := s.x .r5 &&& s.x .r6

/-- Phase 1, the interrupt check (R172): one entry at most, and only while IE = 1. -/
def interruptCheck (s : State) : Raising State :=
  if s.ie && s.pending != 0 then interruptEntry s else .ok s

/-- This cycle's input `tick` (R9, R171): no tick past the end of the given inputs (notes/assumptions/3). -/
def State.tick (s : State) : Bool := s.ticks.headD false

/-- Phase 2, the timer check (R171): a tick sets IS bit 0, whatever IE and IM are. -/
def timerCheck (s : State) : State :=
  (if s.tick then s.setX .r6 (s.x .r6 ||| 0b00000001) else s).dropTick

/-! ## Phases 3 to 8 (R81 to R89) -/

/-- Phase 6, the PC advance by the length of the instruction at PC, made only when SETS_PC = 0 (R84). -/
def phaseAdvance (ir : Byte) (s : State) : State :=
  if setsPcBit ir then s else s.advancePc (instrLen ir)

/-- Phase 7 for an unrecognised opcode, after the PC advance (R69, R87): the diagnostic and nothing else. `addr`
is the address the byte was fetched from. -/
def unrecognised (ir addr : Byte) (s : State) : State := s.report (.unknownOpcode ir addr)

/-- The low 8 bits of the sum whose carry is outstanding at the end of a cycle (R89, R91): the PC that phase 6 left
where its advance overflowed, else the PC that a jump not taken has left. -/
def overflowSum (advanced s : State) : Byte := if advanced.ovf then advanced.pc else s.pc

/-- Phase 8 (R89): an outstanding overflow of a machine still running raises `BoundsFault(PcOverflow)` under the
fault policy, PC holding the wrapped sum (R89, R91; notes/assumptions/20); the latch does not outlive the cycle
(R33). `advanced` is the state that phase 6 left, `s` the one that phase 7 left. -/
def endOfCycle (advanced s : State) : State :=
  (if s.run && s.ovf then
    match (s.setPc (overflowSum advanced s)).outOfBounds .pcOverflow with
    | .error s' => s'
    | .ok () => s
  else s).setOvf false

/-- Phase 8 after an instruction's outcome. -/
def finishCycle (advanced : State) : Host.Outcome State Fault Refusal → Host.Outcome State Fault Refusal
  | .next s => .next (endOfCycle advanced s)
  | .fault f => .fault f
  | .refused r => .refused r

/-- Phases 3 to 8. A raise in the operand fetch ends the cycle with PC still at A (R83). -/
def fetchAndExecute (s : State) : Host.Outcome State Fault Refusal :=
  let ir := s.load s.pc
  let advanced := phaseAdvance ir s
  match decodeOp s.config.opcodes ir with
  | none => .next (endOfCycle advanced (unrecognised ir s.pc advanced))
  | some op =>
    match s.fetchOperands (instrLen ir) with
    | .error s' => .next s'
    | .ok (a, b) => finishCycle advanced (exec (op.instr a b) advanced)

/-- A whole cycle (R80); the overflow latch is cleared at its start (R84). -/
def cycle (s : State) : Host.Outcome State Fault Refusal :=
  match interruptCheck (s.setOvf false) with
  | .error s' => .next s'
  | .ok s' => fetchAndExecute (timerCheck s')

/-- One step: a cycle while RUN = 1; with RUN = 0 no cycle runs and no state changes (R28, R80, R90; the form is
notes/assumptions/2). -/
def machineStep (s : State) : Host.Outcome State Fault Refusal :=
  if s.run then cycle s else .next s

/-! ## Where the next instruction is fetched from -/

/-- The address the next cycle fetches from: PC, or the handler's address when the cycle takes an interrupt. -/
def fetchAddress (s : State) : Byte :=
  match interruptCheck s with
  | .ok s' => s'.pc
  | .error s' => s'.pc

/-- The state with an instruction's bytes stored where the next cycle fetches (notes/assumptions/12). -/
def placeInstruction (s : State) (bytes : List Byte) : State :=
  { s with mem := s.mem.writeAll (fetchAddress s) bytes }

end Sys2Proof.Machine
end

