-- ==== Sys2Proof/Machine/Step.lean ====
section
/-! DEFINITION. The machine's step, and a word of the opcode table placed where the step fetches. -/

namespace Sys2Proof.Machine

/-- One step of the machine (spec/40_cycle.md R80). -/
def step (s : State) : Host.Outcome State Fault Refusal := machineStep s

/-- The state with a word, numbered as spec/opcode_table.json numbers it, stored where `step` fetches its next
instruction (notes/assumptions/11 and 12). -/
def State.withFetchWord (s : State) (nbits w : Nat) : State := placeInstruction s (tableBytes nbits w)

end Sys2Proof.Machine
end

