-- ==== Sys2Proof/Machine/Reset.lean ====
section
/-! DEFINITION. The input `reset` with a launch image (spec/70_reset_and_hazards.md R190 to R192). -/

namespace Sys2Proof.Machine

/-- Memory after the load: the image's bytes from address 0 (LOAD_BASE, R5) up, 0x00 elsewhere (R35). -/
def launchMemory (image : List Byte) : Memory := Memory.writeAll [] 0x00 image

/-- Reset (R9, R190): every piece of state at its reset value, memory holding the image. The configuration and the
ticks of the cycles to come are given with it (R197). An image longer than 256 bytes is refused (R192, D6). -/
def State.launch (config : Config) (ticks : List Bool) (image : List Byte) :
    Host.Outcome State Fault Refusal :=
  if image.length ≤ 256 then
    .next { State.reset with mem := launchMemory image, ticks := ticks, config := config }
  else .refused .launchImageTooLong

end Sys2Proof.Machine
end

