-- ==== Sys2Proof/Safety.lean ====
section
/-! DEFINITION. The terms in which claims speak of the machine: frames, the invariant, a safe state, the bytes at
PC, the registers an instruction may write. -/

namespace Sys2Proof.Machine

/-! ## Frames -/

/-- `t` agrees with `s` in everything but PC, the registers `rs` and the memory cells `cells`. -/
def Frame (s t : State) (rs : List Reg) (cells : List Byte) : Prop :=
  (∀ r, r ∉ rs → t.x r = s.x r) ∧ (∀ a, a ∉ cells → t.load a = s.load a) ∧
  t.fl = s.fl ∧ t.ie = s.ie ∧ t.run = s.run ∧ t.fault = s.fault ∧ t.ovf = s.ovf ∧
  t.out = s.out ∧ t.diag = s.diag ∧ t.ticks = s.ticks ∧ t.config = s.config

/-- `t` is `s` stopped by the fault `f`, with nothing but RUN and FAULT changed (spec/60_exceptions.md R160). -/
def StoppedBy (f : Fault) (s t : State) : Prop :=
  t.run = false ∧ t.fault = some f ∧ t.pc = s.pc ∧ Frame { s with run := false, fault := some f } t [] []

/-- The bounds policy is `fault` (R6). -/
abbrev State.checked (s : State) : Prop := s.config.policy = .fault

/-- The bounds policy is `wrap` (R6, R92). -/
abbrev State.wraps (s : State) : Prop := s.config.policy = .wrap

/-! ## Safe states -/

/-- The machine has not stopped with a fault (R165). -/
def State.safe (s : State) : Prop := s.fault = none

/-- What holds between cycles: memory is in its canonical form; a running machine has no fault (R165); a
`BoundsFault` came under the fault policy (R162); a `RegIndexFault` records a byte above 7 (R163); no PC overflow
is outstanding (R36); the opcode map is a legal one (R6). -/
structure State.Inv (s : State) : Prop where
  memory : s.mem.wf = true
  running : s.run = true → s.fault = none
  bounds : ∀ kind, s.fault = some (.boundsFault kind) → s.config.policy = .fault
  regIndex : ∀ b, s.fault = some (.regIndexFault b) → 8 ≤ b.toNat
  latch : s.ovf = false
  opcodes : s.config.opcodes.legal = true

/-! ## A stream of instructions -/

/-- At most `n` pieces of a byte sequence, each as long as bits 7 to 6 of its first byte say
(spec/30_encoding.md R70). -/
def cutStream : Nat → List Byte → List (List Byte)
  | 0, _ => []
  | _ + 1, [] => []
  | n + 1, ir :: tail => (ir :: tail).take (instrLen ir) :: cutStream n (tail.drop (cnt ir))

/-! ## What a cycle fetches -/

/-- The three bytes from PC up, modulo 256: the longest instruction (R46, R70). -/
def State.bytesAtPc (s : State) : List Byte := [s.load s.pc, s.load (s.pc + 1), s.load (s.pc + 2)]

/-- The `n` bytes from PC lie in memory, or addresses wrap (R83, R92). -/
abbrev State.fits (s : State) (n : Nat) : Prop := s.pc.toNat + n ≤ 256 ∨ s.config.policy = .wrap

/-- The state in which a cycle from `s` fetches, when no stack fault ends it before: the interrupt check and the
timer check are done (R80). -/
def FetchesIn (s s' : State) : Prop :=
  s.run = true ∧ ∃ s1, interruptCheck (s.setOvf false) = .ok s1 ∧ s' = timerCheck s1

/-- The cycle from `s` fetches the opcode byte `ir` (R81). -/
def FetchesOpcode (s : State) (ir : Byte) : Prop := ∃ s', FetchesIn s s' ∧ ir = s'.load s'.pc

/-- The cycle from `s` executes the instruction of this mnemonic (R82). -/
def Executes (s : State) (op : Op) : Prop := ∃ ir, FetchesOpcode s ir ∧ decodeOp s.config.opcodes ir = some op

/-- The cycle from `s` takes an interrupt (R172). -/
def TakesInterrupt (s : State) : Prop := s.run = true ∧ s.ie = true ∧ s.x .r5 &&& s.x .r6 ≠ 0

/-! ## Registers an instruction may write (spec/10_state.md R21) -/

/-- The register an operand byte names is `r`. -/
def names (b : Byte) (r : Reg) : Prop := b = r.byte

/-- `r` is a destination the instruction names, or SP for a stack instruction, or any register for IRET. -/
def mayWrite (i : Instr) (r : Reg) : Prop :=
  match i with
  | .ldi a _ | .ld a _ | .add a _ | .sub a _ | .mul a _ | .div a _ | .mod a _ | .and a _ | .or a _ | .xor a _
  | .shl a _ | .shr a _ | .inc a | .dec a | .not a => names a r
  | .pop a => names a r ∨ r = .r7
  | .push _ | .call _ | .ret => r = .r7
  | .iret => True
  | .hlt | .prn _ | .pra _ | .st _ _ | .jmp _ | .jeq _ | .jne _ | .cmp _ _ => False

end Sys2Proof.Machine
end

