-- ==== Sys2Proof/Certificates/Slice0/Obligations.lean ====
section
/-! DEFINITION. The statements for the provers. Each docstring says which rule of spec/ a statement formalises. -/

open Sys2Proof Sys2Proof.Machine

/-! ## Reset and launch -/

/-- spec/10_state.md R35, spec/70_reset_and_hazards.md R190 and R191: the values after reset. PC, FL, IE, RUN and
FAULT are the spec's decisions D2 to D5; the configuration is the default of R6. -/
def Obligations.ResetValues : Prop :=
  State.reset.x .r7 = 0xF4 ∧ (∀ r, r ≠ .r7 → State.reset.x r = 0x00) ∧
  (∀ a, State.reset.load a = 0x00) ∧ State.reset.pc = 0x00 ∧ State.reset.fl = 0x00 ∧
  State.reset.ie = true ∧ State.reset.run = true ∧ State.reset.fault = none ∧
  State.reset.out = [] ∧ State.reset.diag = [] ∧ State.reset.config.policy = .fault

/-- R190, R192, R35 (decision D6): an image of at most 256 bytes stands in memory from address 0 with 0x00 above
it and everything else is as after reset; a longer one is refused. -/
def Obligations.LaunchLoadsImageAtZero : Prop :=
  ∀ (c : Config) (ticks : List Bool) (image : List Byte),
    (image.length ≤ 256 → ∃ t, State.launch c ticks image = .next t ∧
      (∀ a : Byte, t.load a = image.getD a.toNat 0x00) ∧ t.mem.wf = true ∧
      t = { State.reset with mem := t.mem, ticks := ticks, config := c }) ∧
    (256 < image.length → State.launch c ticks image = .refused .launchImageTooLong)

/-! ## Encoding -/

/-- spec/30_encoding.md R66: words written out from the table and V1, V2 of spec/95_test_vectors.md decode to the
instructions they stand for. 25 of the 28 opcode bytes are presumed by the spec (notes/assumptions/5). -/
def Obligations.KnownWordsDecode : Prop :=
  decode OpcodeMap.default [0b10000010, 0b00000000, 0b00001000] = .ok (.ldi 0 8, []) ∧
  decode OpcodeMap.default [0b01000111, 0b00000000] = .ok (.prn 0, []) ∧
  decode OpcodeMap.default [0b00000001] = .ok (.hlt, []) ∧
  decode OpcodeMap.default [0b10100111, 0b00000001, 0b00000010] = .ok (.cmp 1 2, []) ∧
  decode OpcodeMap.default [0b01010000, 0b00000001] = .ok (.call 1, []) ∧
  decode OpcodeMap.default [0b00010011] = .ok (.iret, []) ∧
  decode OpcodeMap.default [0b01101001, 0b00000011] = .ok (.not 3, []) ∧
  decode OpcodeMap.default [0b01000101, 0b00000111] = .ok (.push 7, []) ∧
  decode OpcodeMap.default [0b10000100, 0b00000000, 0b00000001] = .ok (.st 0 1, []) ∧
  decode OpcodeMap.default [0b00000000] = .error (.unrecognised 0) ∧
  decode OpcodeMap.default [0b11000000] = .error (.unrecognised 0b11000000)

/-- spec/30_encoding.md section 3: the default OPCODE_MAP keeps what every map must keep, and exactly 28 of the
256 opcode bytes name an instruction. -/
def Obligations.DefaultOpcodeMapIsLegal : Prop :=
  OpcodeMap.default.legal = true ∧
  ((List.range 256).filter fun n => (decodeOp OpcodeMap.default (BitVec.ofNat 8 n)).isNone).length = 228

/-- spec/30_encoding.md sections 2 and 3: under every legal OPCODE_MAP, decoding the bytes of an instruction gives
it back, with the bytes after it, for every operand byte (also one that names no register). -/
def Obligations.DecodeOfEncode : Prop :=
  ∀ (m : OpcodeMap) (i : Instr) (rest : List Byte), m.legal = true →
    decode m (encode m i ++ rest) = .ok (i, rest)

/-- The other direction: a byte sequence that decodes is the instruction's bytes and the rest, so each word has
one meaning. -/
def Obligations.EncodeOfDecode : Prop :=
  ∀ (m : OpcodeMap) (i : Instr) (bytes rest : List Byte), m.legal = true →
    decode m bytes = .ok (i, rest) → bytes = encode m i ++ rest

/-- spec/30_encoding.md sections 1 and 3 (R60 to R63 and the columns of R66): under every legal map an
instruction's opcode byte has its length in bits 7 to 6, bit 5 set exactly for the ALU instructions and bit 4 set
only for CALL, RET, JMP, JEQ, JNE and IRET; under the default map it is set for each of these six, which another map
need not keep (R66; notes/assumptions/6). -/
def Obligations.OpcodeBitFieldsDescribeInstruction : Prop :=
  ∀ (m : OpcodeMap) (i : Instr), m.legal = true → ∃ ir operands, encode m i = ir :: operands ∧
    operands.length = ir.toNat / 64 ∧ operands.length ≤ 2 ∧
    (ir.toNat / 32 % 2 = 1 ↔
      i.op ∈ [Op.add, .sub, .mul, .div, .mod, .inc, .dec, .cmp, .and, .or, .xor, .not, .shl, .shr]) ∧
    (ir.toNat / 16 % 2 = 1 → i.op ∈ [Op.call, .ret, .jmp, .jeq, .jne, .iret]) ∧
    (m = OpcodeMap.default → i.op ∈ [Op.call, .ret, .jmp, .jeq, .jne, .iret] → ir.toNat / 16 % 2 = 1)

/-- spec/30_encoding.md R70: an instruction is 1, 2 or 3 bytes long as bits 7 to 6 of its first byte alone say, and a
stream of instructions is cut into them by those bits, without knowing OPCODE_MAP. -/
def Obligations.StreamIsCutByFirstBytes : Prop :=
  ∀ (m : OpcodeMap), m.legal = true →
    (∀ (i : Instr) (bytes rest : List Byte), decode m bytes = .ok (i, rest) → ∃ ir tail, bytes = ir :: tail ∧
      bytes.drop (ir.toNat / 64 + 1) = rest ∧ (encode m i).length = ir.toNat / 64 + 1 ∧
      1 ≤ (encode m i).length ∧ (encode m i).length ≤ 3) ∧
    (∀ is : List Instr, cutStream is.length (is.flatMap (encode m)) = is.map (encode m))

/-- spec/30_encoding.md R65 (decision D11): an operand byte of at most 7 names the register with that number, any
other byte names none. -/
def Obligations.OperandByteNamesRegister : Prop :=
  (∀ r : Reg, regOf r.byte = some r) ∧ (∀ b : Byte, 8 ≤ b.toNat → regOf b = none) ∧
  (∀ (b : Byte) (r : Reg), regOf b = some r → r.byte = b)

/-! ## Registers and memory -/

/-- spec/10_state.md R20: eight registers, each 0 to 255, one for each 3-bit number, the low three bits of the operand
byte (the place of the number in that byte is the spec's decision D11, R65); one bank with no windows: what a register
reads and what a write leaves in the register file depend on the register file alone; every register is storage, none
hardwired, none an alias of another or of any other piece of state. -/
def Obligations.RegistersAreSeparateCells : Prop :=
  (∀ (s : State) (r q : Reg) (v : Byte), (s.x r).toNat ≤ 255 ∧ (s.setX r v).x r = v ∧
    (q ≠ r → (s.setX r v).x q = s.x q) ∧ s.setX r (s.x r) = s ∧
    s.setX r v = { s with regs := (s.setX r v).regs }) ∧
  (∀ (s u : State) (r : Reg) (v : Byte), s.regs = u.regs →
    s.x r = u.x r ∧ (s.setX r v).regs = (u.setX r v).regs) ∧
  (∀ n n' : BitVec 3, regNumbered n = regNumbered n' → n = n') ∧ (∀ r : Reg, ∃ n, regNumbered n = r) ∧
  (∀ (b : Byte) (r : Reg), regOf b = some r → r = regNumbered (b.extractLsb' 0 3))

/-- spec/20_memory.md R42: `MemWrite` sets the cell and has no other effect. -/
def Obligations.MemoryWriteSetsOneCell : Prop :=
  ∀ (s : State) (addr v : Byte), (s.store addr v).load addr = v ∧
    (∀ other, other ≠ addr → (s.store addr v).load other = s.load other) ∧
    s.store addr v = { s with mem := (s.store addr v).mem }

/-- The canonical form of memory (the model's own, INVENTORY.md): every write keeps it, and two memories in it
that read alike are equal. -/
def Obligations.MemoryFormIsCanonical : Prop :=
  (∀ (m : Memory) (addr v : Byte), m.wf = true → (m.write addr v).wf = true) ∧
  (∀ m m' : Memory, m.wf = true → m'.wf = true → (∀ a : Byte, m.read a = m'.read a) → m = m')

/-! ## ALU instructions -/

/-- spec/41_alu.md R101, R102, R103: encoding, result modulo 256, and the frame of ADD, SUB and MUL. The opcode
bytes named are presumed by the spec, not the source's (R66, D7; notes/assumptions/5). -/
def Obligations.AddSubMulWrapModulo256 : Prop :=
  ∀ (a b : Reg) (s : State),
    (encode OpcodeMap.default (.add a.byte b.byte) = [0b10100000, a.byte, b.byte] ∧
      ∃ t, exec (.add a.byte b.byte) s = .next t ∧
        (t.x a).toNat = ((s.x a).toNat + (s.x b).toNat) % 256 ∧ t.pc = s.pc ∧ Frame s t [a] []) ∧
    (encode OpcodeMap.default (.sub a.byte b.byte) = [0b10100001, a.byte, b.byte] ∧
      ∃ t, exec (.sub a.byte b.byte) s = .next t ∧
        (t.x a).toNat = ((s.x a).toNat + 256 - (s.x b).toNat) % 256 ∧ t.pc = s.pc ∧ Frame s t [a] []) ∧
    (encode OpcodeMap.default (.mul a.byte b.byte) = [0b10100010, a.byte, b.byte] ∧
      ∃ t, exec (.mul a.byte b.byte) s = .next t ∧
        (t.x a).toNat = ((s.x a).toNat * (s.x b).toNat) % 256 ∧ t.pc = s.pc ∧ Frame s t [a] [])

/-- spec/41_alu.md R104, R105: encoding, quotient and remainder for a divisor that is not 0, `DivideByZero` with
nothing else changed for 0, and `RegIndexFault`, not `DivideByZero`, for a bad operand byte, the first such one,
whatever the registers hold. PC in `s` is A + 3: the advance comes before (StepRunsDecodedInstruction). The opcode
bytes named are presumed by the spec, not the source's (R66, D7; notes/assumptions/5). -/
def Obligations.DivModOrDivideByZero : Prop :=
  ∀ (a b : Reg) (s : State),
    encode OpcodeMap.default (.div a.byte b.byte) = [0b10100011, a.byte, b.byte] ∧
    encode OpcodeMap.default (.mod a.byte b.byte) = [0b10100100, a.byte, b.byte] ∧
    (s.x b ≠ 0 →
      (∃ t, exec (.div a.byte b.byte) s = .next t ∧
        (t.x a).toNat = (s.x a).toNat / (s.x b).toNat ∧ t.pc = s.pc ∧ Frame s t [a] []) ∧
      (∃ t, exec (.mod a.byte b.byte) s = .next t ∧
        (t.x a).toNat = (s.x a).toNat % (s.x b).toNat ∧ t.pc = s.pc ∧ Frame s t [a] [])) ∧
    (s.x b = 0 →
      (∃ t, exec (.div a.byte b.byte) s = .next t ∧ StoppedBy .divideByZero s t) ∧
      (∃ t, exec (.mod a.byte b.byte) s = .next t ∧ StoppedBy .divideByZero s t)) ∧
    (∀ c : Byte, 8 ≤ c.toNat →
      (∃ t, exec (.div a.byte c) s = .next t ∧ StoppedBy (.regIndexFault c) s t) ∧
      (∃ t, exec (.mod a.byte c) s = .next t ∧ StoppedBy (.regIndexFault c) s t)) ∧
    (∀ c d : Byte, 8 ≤ c.toNat →
      (∃ t, exec (.div c d) s = .next t ∧ StoppedBy (.regIndexFault c) s t) ∧
      (∃ t, exec (.mod c d) s = .next t ∧ StoppedBy (.regIndexFault c) s t))

/-- spec/41_alu.md R113, R114, R111: encoding, result and frame of INC, DEC and NOT; FL is in the frame. The opcode
bytes named are presumed by the spec, not the source's (R66, D7; notes/assumptions/5). -/
def Obligations.IncDecNotResults : Prop :=
  ∀ (a : Reg) (s : State),
    (encode OpcodeMap.default (.inc a.byte) = [0b01100101, a.byte] ∧
      ∃ t, exec (.inc a.byte) s = .next t ∧
        (t.x a).toNat = ((s.x a).toNat + 1) % 256 ∧ t.pc = s.pc ∧ Frame s t [a] []) ∧
    (encode OpcodeMap.default (.dec a.byte) = [0b01100110, a.byte] ∧
      ∃ t, exec (.dec a.byte) s = .next t ∧
        (t.x a).toNat = ((s.x a).toNat + 255) % 256 ∧ t.pc = s.pc ∧ Frame s t [a] []) ∧
    (encode OpcodeMap.default (.not a.byte) = [0b01101001, a.byte] ∧
      ∃ t, exec (.not a.byte) s = .next t ∧
        (t.x a).toNat = 255 - (s.x a).toNat ∧ t.pc = s.pc ∧ Frame s t [a] [])

/-- spec/41_alu.md R107 (decision D23, unsigned): CMP writes all of FL, one flag of the three, and no register. -/
def Obligations.CmpSetsExactlyOneFlag : Prop :=
  ∀ (a b : Reg) (s : State), ∃ t, exec (.cmp a.byte b.byte) s = .next t ∧
    (s.x a = s.x b → t.fl = 0b00000001) ∧
    ((s.x b).toNat < (s.x a).toNat → t.fl = 0b00000010) ∧
    ((s.x a).toNat < (s.x b).toNat → t.fl = 0b00000100) ∧
    t.pc = s.pc ∧ Frame { s with fl := t.fl } t [] []

/-- spec/41_alu.md R108, R109, R110: encoding, result bit by bit and frame of AND, OR and XOR. The opcode
bytes named are presumed by the spec, not the source's (R66, D7; notes/assumptions/5). -/
def Obligations.AndOrXorBitByBit : Prop :=
  ∀ (a b : Reg) (s : State),
    (encode OpcodeMap.default (.and a.byte b.byte) = [0b10101000, a.byte, b.byte] ∧
      ∃ t, exec (.and a.byte b.byte) s = .next t ∧
        (∀ n, (t.x a).getLsbD n = ((s.x a).getLsbD n && (s.x b).getLsbD n)) ∧ t.pc = s.pc ∧ Frame s t [a] []) ∧
    (encode OpcodeMap.default (.or a.byte b.byte) = [0b10101010, a.byte, b.byte] ∧
      ∃ t, exec (.or a.byte b.byte) s = .next t ∧
        (∀ n, (t.x a).getLsbD n = ((s.x a).getLsbD n || (s.x b).getLsbD n)) ∧ t.pc = s.pc ∧ Frame s t [a] []) ∧
    (encode OpcodeMap.default (.xor a.byte b.byte) = [0b10101011, a.byte, b.byte] ∧
      ∃ t, exec (.xor a.byte b.byte) s = .next t ∧
        (∀ n, (t.x a).getLsbD n = ((s.x a).getLsbD n ^^ (s.x b).getLsbD n)) ∧ t.pc = s.pc ∧ Frame s t [a] [])

/-- spec/41_alu.md section 5 (decision D18): the amount is the whole second register, zeros enter, bits shifted
out are lost, an amount of 8 or more gives 0. -/
def Obligations.ShiftsByWholeRegister : Prop :=
  ∀ (a b : Reg) (s : State),
    (∃ t, exec (.shl a.byte b.byte) s = .next t ∧
      (t.x a).toNat = (s.x a).toNat * 2 ^ (s.x b).toNat % 256 ∧
      (8 ≤ (s.x b).toNat → t.x a = 0) ∧ t.pc = s.pc ∧ Frame s t [a] []) ∧
    (∃ t, exec (.shr a.byte b.byte) s = .next t ∧
      (t.x a).toNat = (s.x a).toNat / 2 ^ (s.x b).toNat ∧
      (8 ≤ (s.x b).toNat → t.x a = 0) ∧ t.pc = s.pc ∧ Frame s t [a] [])

/-! ## Data movement -/

/-- spec/42_data_move.md R120, R121, R122: encoding, effect and frame of LDI, LD and ST. The bytes of LD and ST are
presumed by the spec, not the source's (R66, D7; notes/assumptions/5); LDI's is the source's. -/
def Obligations.LoadImmediateLoadStore : Prop :=
  ∀ (a b : Reg) (imm : Byte) (s : State),
    (encode OpcodeMap.default (.ldi a.byte imm) = [0b10000010, a.byte, imm] ∧
      ∃ t, exec (.ldi a.byte imm) s = .next t ∧ t.x a = imm ∧ t.pc = s.pc ∧ Frame s t [a] []) ∧
    (encode OpcodeMap.default (.ld a.byte b.byte) = [0b10000011, a.byte, b.byte] ∧
      ∃ t, exec (.ld a.byte b.byte) s = .next t ∧ t.x a = s.load (s.x b) ∧ t.pc = s.pc ∧ Frame s t [a] []) ∧
    (encode OpcodeMap.default (.st a.byte b.byte) = [0b10000100, a.byte, b.byte] ∧
      ∃ t, exec (.st a.byte b.byte) s = .next t ∧ t.load (s.x a) = s.x b ∧ t.pc = s.pc ∧ Frame s t [] [s.x a])

/-! ## The stack -/

/-- spec/43_stack.md section 2 (decisions D12, D19): PUSH decrements SP and stores the register as it then
stands; with SP = 0x00 under the fault policy it stops with nothing written. -/
def Obligations.PushStoresBelowStackPointer : Prop :=
  ∀ (a : Reg) (s : State),
    (s.x .r7 ≠ 0x00 ∨ s.wraps → ∃ t, exec (.push a.byte) s = .next t ∧
      t.x .r7 = s.x .r7 - 1 ∧ t.load (s.x .r7 - 1) = (if a = .r7 then s.x .r7 - 1 else s.x a) ∧
      t.pc = s.pc ∧ Frame s t [.r7] [s.x .r7 - 1]) ∧
    (s.x .r7 = 0x00 → s.checked →
      ∃ t, exec (.push a.byte) s = .next t ∧ StoppedBy (.boundsFault .stackPush) s t)

/-- spec/43_stack.md section 2 (decisions D12, D19): POP writes the register, then increments SP as it then
stands; where that SP is 0xFF under the fault policy it stops with the register written. -/
def Obligations.PopLoadsThenIncrements : Prop :=
  ∀ (a : Reg) (s : State), let v := s.load (s.x .r7); let sp := if a = .r7 then v else s.x .r7
    (sp ≠ 0xFF ∨ s.wraps → ∃ t, exec (.pop a.byte) s = .next t ∧
      t.x .r7 = sp + 1 ∧ (a ≠ .r7 → t.x a = v) ∧ t.pc = s.pc ∧ Frame s t [a, .r7] []) ∧
    (sp = 0xFF → s.checked → ∃ t, exec (.pop a.byte) s = .next t ∧ t.x a = v ∧ t.pc = s.pc ∧
      Frame { s with run := false, fault := some (.boundsFault .stackPop) } t [a] [])

/-- spec/95_test_vectors.md S5: PUSH then POP of the same register gives the register and SP back. Of PUSH R7 then
POP R7 this is so too: the stored SP is one lower and the increment makes up for it. -/
def Obligations.PushThenPopRestores : Prop :=
  ∀ (a : Reg) (s : State), s.x .r7 ≠ 0x00 ∨ s.wraps →
    ∃ t u, exec (.push a.byte) s = .next t ∧ exec (.pop a.byte) t = .next u ∧
      (∀ r, u.x r = s.x r) ∧ u.fl = s.fl ∧ u.pc = s.pc ∧ u.run = s.run ∧ u.fault = s.fault

/-! ## Control transfer -/

/-- spec/44_control_transfer.md section 2 (decisions D12, D19), A being CALL's own address: CALL pushes A + 2 and goes
to the register as it stands after the push; on a fault nothing is pushed and PC is A. -/
def Obligations.CallPushesReturnAddress : Prop :=
  ∀ (a : Reg) (s : State), let own := s.ownAddress .call
    (own.toNat ≤ 0xFD ∨ s.wraps → s.x .r7 ≠ 0x00 ∨ s.wraps → ∃ t, exec (.call a.byte) s = .next t ∧
      t.load (s.x .r7 - 1) = own + 2 ∧ t.x .r7 = s.x .r7 - 1 ∧
      t.pc = (if a = .r7 then s.x .r7 - 1 else s.x a) ∧ Frame s t [.r7] [s.x .r7 - 1]) ∧
    (0xFD < own.toNat → s.checked →
      ∃ t, exec (.call a.byte) s = .next t ∧ StoppedBy (.boundsFault .pcOverflow) (s.setPc own) t) ∧
    (own.toNat ≤ 0xFD → s.x .r7 = 0x00 → s.checked →
      ∃ t, exec (.call a.byte) s = .next t ∧ StoppedBy (.boundsFault .stackPush) (s.setPc own) t)

/-- spec/44_control_transfer.md section 2 and spec/43_stack.md section 1 (decision D12): RET pops PC; on a fault PC
is RET's own address. -/
def Obligations.RetPopsProgramCounter : Prop :=
  ∀ s : State,
    (s.x .r7 ≠ 0xFF ∨ s.wraps → ∃ t, exec .ret s = .next t ∧
      t.pc = s.load (s.x .r7) ∧ t.x .r7 = s.x .r7 + 1 ∧ Frame s t [.r7] []) ∧
    (s.x .r7 = 0xFF → s.checked →
      ∃ t, exec .ret s = .next t ∧ StoppedBy (.boundsFault .stackPop) (s.setPc (s.ownAddress .ret)) t)

/-- spec/95_test_vectors.md S6: from any later state with SP and the pushed cell as CALL left them, RET goes to the
instruction after the CALL and gives SP back. -/
def Obligations.CallThenRetReturns : Prop :=
  ∀ (a : Reg) (s : State), let own := s.ownAddress .call
    own.toNat ≤ 0xFD ∨ s.wraps → s.x .r7 ≠ 0x00 ∨ s.wraps →
    ∃ t, exec (.call a.byte) s = .next t ∧
      ∀ u : State, u.x .r7 = t.x .r7 → u.load (t.x .r7) = t.load (t.x .r7) → u.config = t.config →
        ∃ v, exec .ret u = .next v ∧ v.pc = own + 2 ∧ v.x .r7 = s.x .r7 ∧ v.run = u.run

/-- spec/44_control_transfer.md R142 and sections 1 and 3 (decision D28 for the jumps not taken): JMP, JEQ and JNE,
taken and not taken, with their frames. Not taken, PC becomes A + 2 and the carry is latched for the end-of-cycle
check. -/
def Obligations.JumpsReadOnlyEqualFlag : Prop :=
  ∀ (a : Reg) (s : State), let jeq := s.ownAddress .jeq; let jne := s.ownAddress .jne
    (∃ t, exec (.jmp a.byte) s = .next t ∧ t.pc = s.x a ∧ Frame s t [] []) ∧
    (s.fl.getLsbD 0 = true →
      (∃ t, exec (.jeq a.byte) s = .next t ∧ t.pc = s.x a ∧ Frame s t [] []) ∧
      (∃ t, exec (.jne a.byte) s = .next t ∧ t.pc = jne + 2 ∧
        Frame { s with ovf := decide (0xFD < jne.toNat) } t [] [])) ∧
    (s.fl.getLsbD 0 = false →
      (∃ t, exec (.jne a.byte) s = .next t ∧ t.pc = s.x a ∧ Frame s t [] []) ∧
      (∃ t, exec (.jeq a.byte) s = .next t ∧ t.pc = jeq + 2 ∧
        Frame { s with ovf := decide (0xFD < jeq.toNat) } t [] []))

/-! ## Halt and output -/

/-- spec/45_system_io.md (decisions D21, D31): HLT clears RUN and nothing else; PRN and PRA append one event with
the register's value. -/
def Obligations.HaltAndOutput : Prop :=
  ∀ (a : Reg) (s : State),
    (∃ t, exec .hlt s = .next t ∧ t.run = false ∧ t.pc = s.pc ∧ Frame { s with run := false } t [] []) ∧
    (∃ t, exec (.prn a.byte) s = .next t ∧ t.out = s.out ++ [.prn (s.x a)] ∧ t.pc = s.pc ∧
      Frame { s with out := t.out } t [] []) ∧
    (∃ t, exec (.pra a.byte) s = .next t ∧ t.out = s.out ++ [.pra (s.x a)] ∧ t.pc = s.pc ∧
      Frame { s with out := t.out } t [] [])

/-! ## Faults -/

/-- spec/60_exceptions.md section 1, spec/30_encoding.md section 2 (decisions D11, D20, D24): an instruction with
an operand byte above 7 where it names a register stops with `RegIndexFault` of the first such byte and changes
nothing else; an instruction that is not so is well formed. -/
def Obligations.BadRegisterOperandStops : Prop :=
  ∀ (i : Instr) (s : State),
    (i.wf = true ↔ ∀ b ∈ i.regOperands, b.toNat ≤ 7) ∧
    (∀ b, i.regOperands.find? (fun b => decide (7 < b.toNat)) = some b →
      ∃ t, exec i s = .next t ∧ StoppedBy (.regIndexFault b) s t)

/-- spec/10_state.md R28 and spec/40_cycle.md section 4 (decision D26): a stopped machine stays as it is (that a
step answers the same state is notes/assumptions/2). -/
def Obligations.StoppedMachineStays : Prop :=
  ∀ (s : State) (n : Nat), s.run = false → core.run n s = .next s

/-! ## The cycle -/

/-- spec/60_exceptions.md section 2 (decisions D16, D27): the timer check sets IS bit 0 when the cycle's tick is
true, whatever IE and IM are, and does nothing else but use up the tick. -/
def Obligations.TimerCheckRaisesSourceZero : Prop :=
  ∀ s : State, let t := timerCheck s
    (∀ n, (t.x .r6).getLsbD n = ((s.x .r6).getLsbD n || (decide (n = 0) && s.ticks.head? == some true))) ∧
    t.ticks = s.ticks.tail ∧ t.pc = s.pc ∧ Frame { s with ticks := t.ticks } t [.r6] []

/-- spec/60_exceptions.md section 3 (decision D14): the interrupt check takes one interrupt when IE = 1 and IM & IS
is not 0, and does nothing otherwise. -/
def Obligations.InterruptTakenExactlyWhenPending : Prop :=
  ∀ s : State,
    (s.ie = true → s.x .r5 &&& s.x .r6 ≠ 0 → interruptCheck s = interruptEntry s) ∧
    (s.ie = false ∨ s.x .r5 &&& s.x .r6 = 0 → interruptCheck s = .ok s)

/-- spec/60_exceptions.md section 3, the frame's table (decisions D12, D15): where the nine pushes fit, entry clears
IE and IS, saves PC, FL, R0 to R5 and 0x00 below SP, and PC takes the vector cell's content, read after the
pushes. -/
def Obligations.InterruptEntrySavesNineBytes : Prop :=
  ∀ s : State, 9 ≤ (s.x .r7).toNat ∨ s.wraps → let sp := s.x .r7
    ∃ t, interruptEntry s = .ok t ∧ t.ie = false ∧ t.x .r6 = 0x00 ∧ t.x .r7 = sp - 9 ∧
      t.load (sp - 1) = s.pc ∧ t.load (sp - 2) = s.fl ∧ t.load (sp - 3) = s.x .r0 ∧
      t.load (sp - 4) = s.x .r1 ∧ t.load (sp - 5) = s.x .r2 ∧ t.load (sp - 6) = s.x .r3 ∧
      t.load (sp - 7) = s.x .r4 ∧ t.load (sp - 8) = s.x .r5 ∧ t.load (sp - 9) = 0x00 ∧
      t.pc = t.load 0xF8 ∧
      Frame { s with ie := false } t [.r6, .r7]
        [sp - 1, sp - 2, sp - 3, sp - 4, sp - 5, sp - 6, sp - 7, sp - 8, sp - 9]

/-- spec/60_exceptions.md section 3 (decisions D12, D20): where SP is below 9 under the fault policy, entry pushes
SP bytes of the frame and stops with `BoundsFault(StackPush)`, IE and IS cleared, SP 0x00 and PC unchanged. -/
def Obligations.InterruptEntryStackFault : Prop :=
  ∀ s : State, (s.x .r7).toNat < 9 → s.checked →
    ∃ t, interruptEntry s = .error t ∧ t.x .r6 = 0x00 ∧ t.x .r7 = 0x00 ∧ t.pc = s.pc ∧
      (∀ k, k < (s.x .r7).toNat → t.load (trunc8 ((s.x .r7).toNat - 1 - k)) =
        [s.pc, s.fl, s.x .r0, s.x .r1, s.x .r2, s.x .r3, s.x .r4, s.x .r5].getD k 0) ∧
      (∀ a : Byte, (s.x .r7).toNat ≤ a.toNat → t.load a = s.load a) ∧
      Frame { s with ie := false, run := false, fault := some (.boundsFault .stackPush), mem := t.mem } t
        [.r6, .r7] []

/-- spec/60_exceptions.md section 4 (decision D12): where the nine pops fit, IRET restores R6 down to R0, FL and PC
from SP up and sets IE. -/
def Obligations.IretPopsNineBytes : Prop :=
  ∀ s : State, (s.x .r7).toNat ≤ 246 ∨ s.wraps → let sp := s.x .r7
    ∃ t, exec .iret s = .next t ∧
      t.x .r6 = s.load sp ∧ t.x .r5 = s.load (sp + 1) ∧ t.x .r4 = s.load (sp + 2) ∧
      t.x .r3 = s.load (sp + 3) ∧ t.x .r2 = s.load (sp + 4) ∧ t.x .r1 = s.load (sp + 5) ∧
      t.x .r0 = s.load (sp + 6) ∧ t.fl = s.load (sp + 7) ∧ t.pc = s.load (sp + 8) ∧
      t.x .r7 = sp + 9 ∧ t.ie = true ∧
      Frame { s with fl := t.fl, ie := true } t [.r0, .r1, .r2, .r3, .r4, .r5, .r6, .r7] []

/-- spec/60_exceptions.md section 4 (decisions D12, D20): where they do not fit under the fault policy, the pops
before the failing one stay (there are 0xFF - SP of them), the machine stops with `BoundsFault(StackPop)`, PC is
IRET's own address and IE is unchanged. -/
def Obligations.IretStackFault : Prop :=
  ∀ s : State, 246 < (s.x .r7).toNat → s.checked → let done := 255 - (s.x .r7).toNat
    ∃ t, exec .iret s = .next t ∧ t.run = false ∧ t.fault = some (.boundsFault .stackPop) ∧
      t.pc = s.ownAddress .iret ∧ t.x .r7 = 0xFF ∧
      (∀ k, (h : k < 7) → t.x ([Reg.r6, .r5, .r4, .r3, .r2, .r1, .r0][k]) =
        if k < done then s.load (trunc8 ((s.x .r7).toNat + k))
        else s.x ([Reg.r6, .r5, .r4, .r3, .r2, .r1, .r0][k])) ∧
      t.fl = (if done = 8 then s.load 0xFE else s.fl) ∧
      Frame { s with fl := t.fl, run := false, fault := some (.boundsFault .stackPop) } t
        [.r0, .r1, .r2, .r3, .r4, .r5, .r6, .r7] []

/-- spec/95_test_vectors.md S7 and spec/90_conflicts.md C5: from entry, and from any later state with SP and the
nine frame bytes as entry left them, IRET gives PC, FL, R0 to R5 and SP back, R6 is 0x00 and IE is set. -/
def Obligations.InterruptCycleRestoresProgram : Prop :=
  ∀ s : State, 9 ≤ (s.x .r7).toNat ∨ s.wraps →
    ∃ t, interruptEntry s = .ok t ∧
      ∀ u : State, u.x .r7 = t.x .r7 → u.config = t.config →
        (∀ k, k < 9 → u.load (t.x .r7 + BitVec.ofNat 8 k) = t.load (t.x .r7 + BitVec.ofNat 8 k)) →
        ∃ v, exec .iret u = .next v ∧ v.pc = s.pc ∧ v.fl = s.fl ∧ (∀ r, r ≠ .r6 → v.x r = s.x r) ∧
          v.x .r6 = 0x00 ∧ v.ie = true ∧ v.run = u.run ∧ v.fault = u.fault ∧ (∀ a, v.load a = u.load a)

/-- spec/40_cycle.md sections 1 and 2 (R80 to R86, R89): when the bytes at PC, after the interrupt and timer
checks, decode to an instruction that fits in memory, the step is `exec` of it, with PC advanced by its length before
when SETS_PC = 0 in its opcode byte, and the end-of-cycle check after. What `exec` takes for the instruction's own
address is the address fetched from, whatever SETS_PC is (R66, R85). -/
def Obligations.StepRunsDecodedInstruction : Prop :=
  ∀ (s s' : State) (i : Instr) (rest : List Byte), s.config.opcodes.legal = true → FetchesIn s s' →
    decode s.config.opcodes s'.bytesAtPc = .ok (i, rest) → s'.fits (encode s.config.opcodes i).length →
    let u := if setsPcBit (s'.load s'.pc) then s' else s'.advancePc (encode s.config.opcodes i).length
    step s = finishCycle u (exec i u) ∧ u.ownAddress i.op = s'.pc

/-- spec/40_cycle.md sections 1 and 2 (R89, R91, decisions D12, D31): the end-of-cycle check, after a PC advance that
left `u`. PC is then the low 8 bits of the overflowing sum: the advance's where it overflowed, else the one that the
instruction left in PC. That the check also clears the latch is the model's choice (notes/assumptions/7): the spec
clears it at the start of a cycle (R84). -/
def Obligations.EndOfCycleChecksOverflow : Prop :=
  ∀ u s : State,
    (s.run = true → s.ovf = true → s.checked →
      StoppedBy (.boundsFault .pcOverflow) { s with pc := if u.ovf then u.pc else s.pc, ovf := false }
        (endOfCycle u s)) ∧
    (s.run = false ∨ s.ovf = false ∨ s.wraps → endOfCycle u s = { s with ovf := false })

/-- spec/40_cycle.md sections 1 and 2 (R84, R89, R91, decisions D12, D31): under the fault policy and a legal map, an
instruction whose byte has SETS_PC = 0 and whose A + len is above 0xFF is executed and the machine has stopped after
the step: as the instruction left it where that stopped it, else with `BoundsFault(PcOverflow)` and PC the low 8 bits
of A + len, whatever the instruction wrote to PC. For the six instructions that write PC the last clause is
notes/assumptions/20. -/
def Obligations.OverflowingAdvanceStops : Prop :=
  ∀ (s s' : State) (i : Instr) (rest : List Byte), s.config.opcodes.legal = true → s.checked → FetchesIn s s' →
    decode s.config.opcodes s'.bytesAtPc = .ok (i, rest) → let len := (encode s.config.opcodes i).length
    s'.fits len → setsPcBit (s'.load s'.pc) = false → 255 < s'.pc.toNat + len →
    ∃ w t, exec i (s'.advancePc len) = .next w ∧ step s = .next t ∧
      (w.run = false → t = { w with ovf := false }) ∧
      (w.run = true → StoppedBy (.boundsFault .pcOverflow)
        { w with pc := trunc8 (s'.pc.toNat + len), ovf := false } t)

/-- spec/40_cycle.md R84 (the pseudocode of `advance_pc`): the low 8 bits of the sum and its carry. -/
def Obligations.AdvanceLatchesCarry : Prop :=
  ∀ (s : State) (n : Nat), n ≤ 4 → let t := s.advancePc n
    t.pc.toNat = (s.pc.toNat + n) % 256 ∧ (t.ovf = true ↔ 255 < s.pc.toNat + n) ∧
    Frame { s with ovf := t.ovf } t [] []

/-- spec/40_cycle.md section 1 (R83, decision D12): an operand byte above 0xFF under the fault policy stops the
machine before anything of the instruction happens, PC still its address. -/
def Obligations.OperandBeyondMemoryStops : Prop :=
  ∀ (s s' : State) (op : Op), s.config.opcodes.legal = true → s.checked → FetchesIn s s' →
    decodeOp s.config.opcodes (s'.load s'.pc) = some op → 256 < s'.pc.toNat + (op.cnt + 1) →
    ∃ t, step s = .next t ∧ StoppedBy (.boundsFault .operandFetch) s' t

/-- spec/40_cycle.md section 1 (R87, decisions D9, D10, D33): an unrecognised opcode is reported and changes
nothing else; PC advances by bits 7 to 6 plus 1 when bit 4 is 0 and stays when it is 1. -/
def Obligations.UnrecognisedOpcodeIsReported : Prop :=
  ∀ (s s' : State), FetchesIn s s' → decodeOp s.config.opcodes (s'.load s'.pc) = none →
    let ir := s'.load s'.pc
    let n := if ir.toNat / 16 % 2 = 1 then 0 else ir.toNat / 64 + 1
    ∃ t, step s = .next t ∧ t.diag = s'.diag ++ [.unknownOpcode ir s'.pc] ∧
      t.pc.toNat = (s'.pc.toNat + n) % 256 ∧
      (s'.pc.toNat + n ≤ 255 ∨ s'.wraps → Frame { s' with diag := t.diag } t [] []) ∧
      (255 < s'.pc.toNat + n → s'.checked →
        Frame { s' with diag := t.diag, run := false, fault := some (.boundsFault .pcOverflow) } t [] [])

/-- spec/60_exceptions.md section 3 (R173, R80): a cycle whose interrupt entry overruns the stack stops there:
nothing is fetched and no tick is sampled. -/
def Obligations.EntryFaultEndsCycle : Prop :=
  ∀ (s t : State), s.run = true → interruptCheck (s.setOvf false) = .error t →
    step s = .next t ∧ t.run = false ∧ t.ticks = s.ticks ∧ t.diag = s.diag ∧ t.out = s.out

/-! ## Rules over the whole machine -/

/-- spec/10_state.md section 3 (R26): only CMP and IRET change FL. -/
def Obligations.OnlyCmpAndIretChangeFlags : Prop :=
  ∀ s t : State, step s = .next t → t.fl ≠ s.fl → Executes s .cmp ∨ Executes s .iret

/-- spec/10_state.md section 4 (R27): IE goes to 1 only by IRET and to 0 only by taking an interrupt. -/
def Obligations.OnlyIretEnablesInterrupts : Prop :=
  ∀ s t : State, step s = .next t →
    (s.ie = false → t.ie = true → Executes s .iret) ∧ (s.ie = true → t.ie = false → TakesInterrupt s)

/-- spec/20_memory.md R42 and section 4: a cell changes only by ST, PUSH, CALL or the taking of an interrupt. -/
def Obligations.OnlyStoresChangeMemory : Prop :=
  ∀ (s t : State) (a : Byte), step s = .next t → t.load a ≠ s.load a →
    Executes s .st ∨ Executes s .push ∨ Executes s .call ∨ TakesInterrupt s

/-- spec/10_state.md section 1 (R21): an instruction changes no register but a destination it names, SP for the
stack instructions, and any register for IRET. -/
def Obligations.InstructionsChangeNamedRegisters : Prop :=
  ∀ (i : Instr) (s : State) (r : Reg), ¬ mayWrite i r →
    ∃ t, exec i s = .next t ∧ t.x r = s.x r

/-- spec/40_cycle.md R88: under every legal map bit 5 of the opcode byte alone tells the ALU's instructions from the
handlers'; an ALU instruction touches neither memory nor PC, writes registers only and, for CMP, FL, and what it
writes depends on the registers alone. -/
def Obligations.AluTouchesNeitherMemoryNorPc : Prop :=
  ∀ (m : OpcodeMap) (i : Instr), m.legal = true → ∃ ir operands, encode m i = ir :: operands ∧
    (ir.toNat / 32 % 2 = 1 ↔
      i.op ∈ [Op.add, .sub, .mul, .div, .mod, .inc, .dec, .cmp, .and, .or, .xor, .not, .shl, .shr]) ∧
    (ir.toNat / 32 % 2 = 1 → ∀ s : State, ∃ t, exec i s = .next t ∧ t.pc = s.pc ∧ (∀ a, t.load a = s.load a) ∧
      (i.op ≠ .cmp → t.fl = s.fl) ∧ t.ie = s.ie ∧ t.out = s.out ∧ t.diag = s.diag ∧
      ∀ u : State, (∀ r, u.x r = s.x r) → ∃ v, exec i u = .next v ∧ (∀ r, v.x r = t.x r) ∧
        (i.op = .cmp → i.wf = true → v.fl = t.fl))

/-- spec/00_scope.md R10 (decisions D21, D25): a step appends at most one output event, by PRN or PRA, with the value
of the register that the operand byte at A + 1 names, and at most one diagnostic, with the unrecognised byte fetched
and its address; nothing is taken back. -/
def Obligations.PortsOnlyGrowByOneEvent : Prop :=
  ∀ s t : State, s.config.opcodes.legal = true → step s = .next t →
    (t.out = s.out ∨ ∃ s' r, FetchesIn s s' ∧ regOf (s'.load (s'.pc + 1)) = some r ∧
      ((decodeOp s.config.opcodes (s'.load s'.pc) = some .prn ∧ t.out = s.out ++ [.prn (s'.x r)]) ∨
        (decodeOp s.config.opcodes (s'.load s'.pc) = some .pra ∧ t.out = s.out ++ [.pra (s'.x r)]))) ∧
    (t.diag = s.diag ∨ ∃ s', FetchesIn s s' ∧ decodeOp s.config.opcodes (s'.load s'.pc) = none ∧
      t.diag = s.diag ++ [.unknownOpcode (s'.load s'.pc) s'.pc])

/-- spec/10_state.md R34: no step changes the configuration. That every step answers a next state is the model's
choice of form: a fault of the machine is a next state (notes/assumptions/1), and a step of a stopped machine answers
the same state (notes/assumptions/2). -/
def Obligations.EveryStepAnswersAndKeepsConfig : Prop :=
  ∀ s : State, ∃ t, step s = .next t ∧ t.config = s.config

/-- spec/60_exceptions.md section 1: a step stops the machine by HLT with no fault, or by a fault; a step that
goes on leaves FAULT as it was. -/
def Obligations.StopIsHaltOrFault : Prop :=
  ∀ s t : State, s.run = true → s.fault = none → step s = .next t →
    (t.run = true → t.fault = none) ∧ (t.run = false → t.fault = none → Executes s .hlt)

/-! ## The invariant -/

/-- The invariant holds right after reset. -/
def Obligations.InvAtReset : Prop := State.reset.Inv

/-- From every state with the invariant, every step leads to a state with it. -/
def Obligations.InvKeptByEveryStep : Prop :=
  ∀ s t : State, s.Inv → step s = .next t → t.Inv
end

