-- ==== Sys2Proof/Laws/Decode.lean ====
section
/-! SUPPORT. The decoder and the encoder: what a legal OPCODE_MAP gives, the shape of an encoding, and how operand
bytes are taken. -/

namespace Sys2Proof

theorem Op.mem_all (op : Op) : op ∈ Op.all := by
  cases op <;> decide

/-- CNT and ALU of a legal map's byte are the table's columns, and SETS_PC is 0 but for the six instructions that
write PC themselves (R66). -/
theorem OpcodeMap.legal_fields {m : OpcodeMap} (h : m.legal = true) (op : Op) :
    cnt (m.byte op) = op.cnt ∧ aluBit (m.byte op) = op.isAlu ∧ (op.setsPc = false → setsPcBit (m.byte op) = false) := by
  have := (Bool.and_eq_true_iff.1 h).1
  simp only [List.all_eq_true, Bool.and_eq_true, beq_iff_eq] at this
  obtain ⟨⟨hc, ha⟩, hs⟩ := this op op.mem_all
  exact ⟨hc, ha, fun h => by simpa [h] using hs⟩

/-- A legal map gives distinct bytes to distinct mnemonics (R66). -/
theorem OpcodeMap.legal_inj {m : OpcodeMap} (h : m.legal = true) {o o' : Op} (he : m.byte o = m.byte o') :
    o = o' := by
  have := of_decide_eq_true (Bool.and_eq_true_iff.1 h).2
  exact List.inj_on_of_nodup_map this o.mem_all o'.mem_all he

theorem decodeOp_some {m : OpcodeMap} {ir : Byte} {op : Op} (h : decodeOp m ir = some op) : m.byte op = ir := by
  simpa using List.find?_some h

theorem decodeOp_none {m : OpcodeMap} {ir : Byte} (h : decodeOp m ir = none) (op : Op) : m.byte op ≠ ir := by
  simpa using List.find?_eq_none.1 h op op.mem_all

theorem decodeOp_byte {m : OpcodeMap} (h : m.legal = true) (op : Op) : decodeOp m (m.byte op) = some op := by
  cases hd : decodeOp m (m.byte op) with
  | none => exact absurd rfl (decodeOp_none hd op)
  | some o => rw [OpcodeMap.legal_inj h (decodeOp_some hd)]

theorem Op.cnt_le_two (op : Op) : op.cnt ≤ 2 := by
  cases op <;> decide

@[simp] theorem Op.instr_op (op : Op) (a b : Byte) : (op.instr a b).op = op := by
  cases op <;> rfl

/-- An encoding is the opcode byte and then the operand bytes. -/
theorem encode_instr (m : OpcodeMap) (op : Op) (a b : Byte) :
    encode m (op.instr a b) = m.byte op :: [a, b].take op.cnt := by
  cases op <;> rfl

/-- Every instruction is its mnemonic with operand bytes. -/
theorem Instr.eq_instr (i : Instr) : ∃ a b, i = i.op.instr a b := by
  cases i
  all_goals first
    | exact ⟨_, _, rfl⟩
    | exact ⟨0, 0, rfl⟩
    | exact ⟨_, 0, rfl⟩

theorem encode_length (m : OpcodeMap) (i : Instr) : (encode m i).length = i.op.cnt + 1 := by
  cases i <;> rfl

/-- Operand bytes taken from their own list. -/
theorem takeOperands_some {n : Nat} {a b : Byte} {bytes rest : List Byte}
    (h : takeOperands n bytes = some (a, b, rest)) : n ≤ 2 ∧ bytes = [a, b].take n ++ rest := by
  unfold takeOperands at h
  split at h <;> simp_all

/-- The steps of a successful decoding. -/
theorem decode_ok {m : OpcodeMap} {bytes rest : List Byte} {i : Instr} (h : decode m bytes = .ok (i, rest)) :
    ∃ ir tail op a b, bytes = ir :: tail ∧ decodeOp m ir = some op ∧
      takeOperands (cnt ir) tail = some (a, b, rest) ∧ i = op.instr a b := by
  unfold decode at h
  split at h
  · cases h
  · rename_i ir tail
    split at h
    · cases h
    · rename_i op ho
      split at h
      · cases h
      · rename_i a b r ht
        cases h
        exact ⟨ir, tail, op, a, b, rfl, ho, ht, rfl⟩

end Sys2Proof
end

