-- ==== Sys2Proof/Laws/State.lean ====
section
/-! SUPPORT. What each update of the state does to each field: one lemma per field per update, true by rfl. -/

namespace Sys2Proof.Machine.State

/-! ### setX -/

@[simp] theorem setX_regs (s : State) (r : Reg) (v : Byte) : (s.setX r v).regs = s.regs.write r v := rfl
@[simp] theorem setX_pc (s : State) (r : Reg) (v : Byte) : (s.setX r v).pc = s.pc := rfl
@[simp] theorem setX_fl (s : State) (r : Reg) (v : Byte) : (s.setX r v).fl = s.fl := rfl
@[simp] theorem setX_ie (s : State) (r : Reg) (v : Byte) : (s.setX r v).ie = s.ie := rfl
@[simp] theorem setX_run (s : State) (r : Reg) (v : Byte) : (s.setX r v).run = s.run := rfl
@[simp] theorem setX_fault (s : State) (r : Reg) (v : Byte) : (s.setX r v).fault = s.fault := rfl
@[simp] theorem setX_mem (s : State) (r : Reg) (v : Byte) : (s.setX r v).mem = s.mem := rfl
@[simp] theorem setX_ovf (s : State) (r : Reg) (v : Byte) : (s.setX r v).ovf = s.ovf := rfl
@[simp] theorem setX_out (s : State) (r : Reg) (v : Byte) : (s.setX r v).out = s.out := rfl
@[simp] theorem setX_diag (s : State) (r : Reg) (v : Byte) : (s.setX r v).diag = s.diag := rfl
@[simp] theorem setX_ticks (s : State) (r : Reg) (v : Byte) : (s.setX r v).ticks = s.ticks := rfl
@[simp] theorem setX_config (s : State) (r : Reg) (v : Byte) : (s.setX r v).config = s.config := rfl
@[simp] theorem setX_load (s : State) (r : Reg) (v : Byte) (c : Byte) : (s.setX r v).load c = s.load c := rfl

/-! ### store -/

@[simp] theorem store_regs (s : State) (a v : Byte) : (s.store a v).regs = s.regs := rfl
@[simp] theorem store_pc (s : State) (a v : Byte) : (s.store a v).pc = s.pc := rfl
@[simp] theorem store_fl (s : State) (a v : Byte) : (s.store a v).fl = s.fl := rfl
@[simp] theorem store_ie (s : State) (a v : Byte) : (s.store a v).ie = s.ie := rfl
@[simp] theorem store_run (s : State) (a v : Byte) : (s.store a v).run = s.run := rfl
@[simp] theorem store_fault (s : State) (a v : Byte) : (s.store a v).fault = s.fault := rfl
@[simp] theorem store_mem (s : State) (a v : Byte) : (s.store a v).mem = s.mem.write a v := rfl
@[simp] theorem store_ovf (s : State) (a v : Byte) : (s.store a v).ovf = s.ovf := rfl
@[simp] theorem store_out (s : State) (a v : Byte) : (s.store a v).out = s.out := rfl
@[simp] theorem store_diag (s : State) (a v : Byte) : (s.store a v).diag = s.diag := rfl
@[simp] theorem store_ticks (s : State) (a v : Byte) : (s.store a v).ticks = s.ticks := rfl
@[simp] theorem store_config (s : State) (a v : Byte) : (s.store a v).config = s.config := rfl
@[simp] theorem store_x (s : State) (a v : Byte) (q : Reg) : (s.store a v).x q = s.x q := rfl

/-! ### setPc -/

@[simp] theorem setPc_regs (s : State) (v : Byte) : (s.setPc v).regs = s.regs := rfl
@[simp] theorem setPc_pc (s : State) (v : Byte) : (s.setPc v).pc = v := rfl
@[simp] theorem setPc_fl (s : State) (v : Byte) : (s.setPc v).fl = s.fl := rfl
@[simp] theorem setPc_ie (s : State) (v : Byte) : (s.setPc v).ie = s.ie := rfl
@[simp] theorem setPc_run (s : State) (v : Byte) : (s.setPc v).run = s.run := rfl
@[simp] theorem setPc_fault (s : State) (v : Byte) : (s.setPc v).fault = s.fault := rfl
@[simp] theorem setPc_mem (s : State) (v : Byte) : (s.setPc v).mem = s.mem := rfl
@[simp] theorem setPc_ovf (s : State) (v : Byte) : (s.setPc v).ovf = s.ovf := rfl
@[simp] theorem setPc_out (s : State) (v : Byte) : (s.setPc v).out = s.out := rfl
@[simp] theorem setPc_diag (s : State) (v : Byte) : (s.setPc v).diag = s.diag := rfl
@[simp] theorem setPc_ticks (s : State) (v : Byte) : (s.setPc v).ticks = s.ticks := rfl
@[simp] theorem setPc_config (s : State) (v : Byte) : (s.setPc v).config = s.config := rfl
@[simp] theorem setPc_x (s : State) (v : Byte) (q : Reg) : (s.setPc v).x q = s.x q := rfl
@[simp] theorem setPc_load (s : State) (v : Byte) (c : Byte) : (s.setPc v).load c = s.load c := rfl

/-! ### setFl -/

@[simp] theorem setFl_regs (s : State) (v : Byte) : (s.setFl v).regs = s.regs := rfl
@[simp] theorem setFl_pc (s : State) (v : Byte) : (s.setFl v).pc = s.pc := rfl
@[simp] theorem setFl_fl (s : State) (v : Byte) : (s.setFl v).fl = v := rfl
@[simp] theorem setFl_ie (s : State) (v : Byte) : (s.setFl v).ie = s.ie := rfl
@[simp] theorem setFl_run (s : State) (v : Byte) : (s.setFl v).run = s.run := rfl
@[simp] theorem setFl_fault (s : State) (v : Byte) : (s.setFl v).fault = s.fault := rfl
@[simp] theorem setFl_mem (s : State) (v : Byte) : (s.setFl v).mem = s.mem := rfl
@[simp] theorem setFl_ovf (s : State) (v : Byte) : (s.setFl v).ovf = s.ovf := rfl
@[simp] theorem setFl_out (s : State) (v : Byte) : (s.setFl v).out = s.out := rfl
@[simp] theorem setFl_diag (s : State) (v : Byte) : (s.setFl v).diag = s.diag := rfl
@[simp] theorem setFl_ticks (s : State) (v : Byte) : (s.setFl v).ticks = s.ticks := rfl
@[simp] theorem setFl_config (s : State) (v : Byte) : (s.setFl v).config = s.config := rfl
@[simp] theorem setFl_x (s : State) (v : Byte) (q : Reg) : (s.setFl v).x q = s.x q := rfl
@[simp] theorem setFl_load (s : State) (v : Byte) (c : Byte) : (s.setFl v).load c = s.load c := rfl

/-! ### setIe -/

@[simp] theorem setIe_regs (s : State) (v : Bool) : (s.setIe v).regs = s.regs := rfl
@[simp] theorem setIe_pc (s : State) (v : Bool) : (s.setIe v).pc = s.pc := rfl
@[simp] theorem setIe_fl (s : State) (v : Bool) : (s.setIe v).fl = s.fl := rfl
@[simp] theorem setIe_ie (s : State) (v : Bool) : (s.setIe v).ie = v := rfl
@[simp] theorem setIe_run (s : State) (v : Bool) : (s.setIe v).run = s.run := rfl
@[simp] theorem setIe_fault (s : State) (v : Bool) : (s.setIe v).fault = s.fault := rfl
@[simp] theorem setIe_mem (s : State) (v : Bool) : (s.setIe v).mem = s.mem := rfl
@[simp] theorem setIe_ovf (s : State) (v : Bool) : (s.setIe v).ovf = s.ovf := rfl
@[simp] theorem setIe_out (s : State) (v : Bool) : (s.setIe v).out = s.out := rfl
@[simp] theorem setIe_diag (s : State) (v : Bool) : (s.setIe v).diag = s.diag := rfl
@[simp] theorem setIe_ticks (s : State) (v : Bool) : (s.setIe v).ticks = s.ticks := rfl
@[simp] theorem setIe_config (s : State) (v : Bool) : (s.setIe v).config = s.config := rfl
@[simp] theorem setIe_x (s : State) (v : Bool) (q : Reg) : (s.setIe v).x q = s.x q := rfl
@[simp] theorem setIe_load (s : State) (v : Bool) (c : Byte) : (s.setIe v).load c = s.load c := rfl

/-! ### stop -/

@[simp] theorem stop_regs (s : State) : (s.stop).regs = s.regs := rfl
@[simp] theorem stop_pc (s : State) : (s.stop).pc = s.pc := rfl
@[simp] theorem stop_fl (s : State) : (s.stop).fl = s.fl := rfl
@[simp] theorem stop_ie (s : State) : (s.stop).ie = s.ie := rfl
@[simp] theorem stop_run (s : State) : (s.stop).run = false := rfl
@[simp] theorem stop_fault (s : State) : (s.stop).fault = s.fault := rfl
@[simp] theorem stop_mem (s : State) : (s.stop).mem = s.mem := rfl
@[simp] theorem stop_ovf (s : State) : (s.stop).ovf = s.ovf := rfl
@[simp] theorem stop_out (s : State) : (s.stop).out = s.out := rfl
@[simp] theorem stop_diag (s : State) : (s.stop).diag = s.diag := rfl
@[simp] theorem stop_ticks (s : State) : (s.stop).ticks = s.ticks := rfl
@[simp] theorem stop_config (s : State) : (s.stop).config = s.config := rfl
@[simp] theorem stop_x (s : State) (q : Reg) : (s.stop).x q = s.x q := rfl
@[simp] theorem stop_load (s : State) (c : Byte) : (s.stop).load c = s.load c := rfl

/-! ### setOvf -/

@[simp] theorem setOvf_regs (s : State) (v : Bool) : (s.setOvf v).regs = s.regs := rfl
@[simp] theorem setOvf_pc (s : State) (v : Bool) : (s.setOvf v).pc = s.pc := rfl
@[simp] theorem setOvf_fl (s : State) (v : Bool) : (s.setOvf v).fl = s.fl := rfl
@[simp] theorem setOvf_ie (s : State) (v : Bool) : (s.setOvf v).ie = s.ie := rfl
@[simp] theorem setOvf_run (s : State) (v : Bool) : (s.setOvf v).run = s.run := rfl
@[simp] theorem setOvf_fault (s : State) (v : Bool) : (s.setOvf v).fault = s.fault := rfl
@[simp] theorem setOvf_mem (s : State) (v : Bool) : (s.setOvf v).mem = s.mem := rfl
@[simp] theorem setOvf_ovf (s : State) (v : Bool) : (s.setOvf v).ovf = v := rfl
@[simp] theorem setOvf_out (s : State) (v : Bool) : (s.setOvf v).out = s.out := rfl
@[simp] theorem setOvf_diag (s : State) (v : Bool) : (s.setOvf v).diag = s.diag := rfl
@[simp] theorem setOvf_ticks (s : State) (v : Bool) : (s.setOvf v).ticks = s.ticks := rfl
@[simp] theorem setOvf_config (s : State) (v : Bool) : (s.setOvf v).config = s.config := rfl
@[simp] theorem setOvf_x (s : State) (v : Bool) (q : Reg) : (s.setOvf v).x q = s.x q := rfl
@[simp] theorem setOvf_load (s : State) (v : Bool) (c : Byte) : (s.setOvf v).load c = s.load c := rfl

/-! ### emit -/

@[simp] theorem emit_regs (s : State) (e : OutEvent) : (s.emit e).regs = s.regs := rfl
@[simp] theorem emit_pc (s : State) (e : OutEvent) : (s.emit e).pc = s.pc := rfl
@[simp] theorem emit_fl (s : State) (e : OutEvent) : (s.emit e).fl = s.fl := rfl
@[simp] theorem emit_ie (s : State) (e : OutEvent) : (s.emit e).ie = s.ie := rfl
@[simp] theorem emit_run (s : State) (e : OutEvent) : (s.emit e).run = s.run := rfl
@[simp] theorem emit_fault (s : State) (e : OutEvent) : (s.emit e).fault = s.fault := rfl
@[simp] theorem emit_mem (s : State) (e : OutEvent) : (s.emit e).mem = s.mem := rfl
@[simp] theorem emit_ovf (s : State) (e : OutEvent) : (s.emit e).ovf = s.ovf := rfl
@[simp] theorem emit_out (s : State) (e : OutEvent) : (s.emit e).out = s.out ++ [e] := rfl
@[simp] theorem emit_diag (s : State) (e : OutEvent) : (s.emit e).diag = s.diag := rfl
@[simp] theorem emit_ticks (s : State) (e : OutEvent) : (s.emit e).ticks = s.ticks := rfl
@[simp] theorem emit_config (s : State) (e : OutEvent) : (s.emit e).config = s.config := rfl
@[simp] theorem emit_x (s : State) (e : OutEvent) (q : Reg) : (s.emit e).x q = s.x q := rfl
@[simp] theorem emit_load (s : State) (e : OutEvent) (c : Byte) : (s.emit e).load c = s.load c := rfl

/-! ### report -/

@[simp] theorem report_regs (s : State) (e : DiagEvent) : (s.report e).regs = s.regs := rfl
@[simp] theorem report_pc (s : State) (e : DiagEvent) : (s.report e).pc = s.pc := rfl
@[simp] theorem report_fl (s : State) (e : DiagEvent) : (s.report e).fl = s.fl := rfl
@[simp] theorem report_ie (s : State) (e : DiagEvent) : (s.report e).ie = s.ie := rfl
@[simp] theorem report_run (s : State) (e : DiagEvent) : (s.report e).run = s.run := rfl
@[simp] theorem report_fault (s : State) (e : DiagEvent) : (s.report e).fault = s.fault := rfl
@[simp] theorem report_mem (s : State) (e : DiagEvent) : (s.report e).mem = s.mem := rfl
@[simp] theorem report_ovf (s : State) (e : DiagEvent) : (s.report e).ovf = s.ovf := rfl
@[simp] theorem report_out (s : State) (e : DiagEvent) : (s.report e).out = s.out := rfl
@[simp] theorem report_diag (s : State) (e : DiagEvent) : (s.report e).diag = s.diag ++ [e] := rfl
@[simp] theorem report_ticks (s : State) (e : DiagEvent) : (s.report e).ticks = s.ticks := rfl
@[simp] theorem report_config (s : State) (e : DiagEvent) : (s.report e).config = s.config := rfl
@[simp] theorem report_x (s : State) (e : DiagEvent) (q : Reg) : (s.report e).x q = s.x q := rfl
@[simp] theorem report_load (s : State) (e : DiagEvent) (c : Byte) : (s.report e).load c = s.load c := rfl

/-! ### dropTick -/

@[simp] theorem dropTick_regs (s : State) : (s.dropTick).regs = s.regs := rfl
@[simp] theorem dropTick_pc (s : State) : (s.dropTick).pc = s.pc := rfl
@[simp] theorem dropTick_fl (s : State) : (s.dropTick).fl = s.fl := rfl
@[simp] theorem dropTick_ie (s : State) : (s.dropTick).ie = s.ie := rfl
@[simp] theorem dropTick_run (s : State) : (s.dropTick).run = s.run := rfl
@[simp] theorem dropTick_fault (s : State) : (s.dropTick).fault = s.fault := rfl
@[simp] theorem dropTick_mem (s : State) : (s.dropTick).mem = s.mem := rfl
@[simp] theorem dropTick_ovf (s : State) : (s.dropTick).ovf = s.ovf := rfl
@[simp] theorem dropTick_out (s : State) : (s.dropTick).out = s.out := rfl
@[simp] theorem dropTick_diag (s : State) : (s.dropTick).diag = s.diag := rfl
@[simp] theorem dropTick_ticks (s : State) : (s.dropTick).ticks = s.ticks.tail := rfl
@[simp] theorem dropTick_config (s : State) : (s.dropTick).config = s.config := rfl
@[simp] theorem dropTick_x (s : State) (q : Reg) : (s.dropTick).x q = s.x q := rfl
@[simp] theorem dropTick_load (s : State) (c : Byte) : (s.dropTick).load c = s.load c := rfl

/-! ### raise -/

@[simp] theorem raise_regs (s : State) (f : Fault) : (s.raise f).regs = s.regs := rfl
@[simp] theorem raise_pc (s : State) (f : Fault) : (s.raise f).pc = s.pc := rfl
@[simp] theorem raise_fl (s : State) (f : Fault) : (s.raise f).fl = s.fl := rfl
@[simp] theorem raise_ie (s : State) (f : Fault) : (s.raise f).ie = s.ie := rfl
@[simp] theorem raise_run (s : State) (f : Fault) : (s.raise f).run = false := rfl
@[simp] theorem raise_fault (s : State) (f : Fault) : (s.raise f).fault = some f := rfl
@[simp] theorem raise_mem (s : State) (f : Fault) : (s.raise f).mem = s.mem := rfl
@[simp] theorem raise_ovf (s : State) (f : Fault) : (s.raise f).ovf = s.ovf := rfl
@[simp] theorem raise_out (s : State) (f : Fault) : (s.raise f).out = s.out := rfl
@[simp] theorem raise_diag (s : State) (f : Fault) : (s.raise f).diag = s.diag := rfl
@[simp] theorem raise_ticks (s : State) (f : Fault) : (s.raise f).ticks = s.ticks := rfl
@[simp] theorem raise_config (s : State) (f : Fault) : (s.raise f).config = s.config := rfl
@[simp] theorem raise_x (s : State) (f : Fault) (q : Reg) : (s.raise f).x q = s.x q := rfl
@[simp] theorem raise_load (s : State) (f : Fault) (c : Byte) : (s.raise f).load c = s.load c := rfl

/-! ### advancePc -/

@[simp] theorem advancePc_regs (s : State) (n : Nat) : (s.advancePc n).regs = s.regs := rfl
@[simp] theorem advancePc_pc (s : State) (n : Nat) : (s.advancePc n).pc = trunc8 (s.pc.toNat + n) := rfl
@[simp] theorem advancePc_fl (s : State) (n : Nat) : (s.advancePc n).fl = s.fl := rfl
@[simp] theorem advancePc_ie (s : State) (n : Nat) : (s.advancePc n).ie = s.ie := rfl
@[simp] theorem advancePc_run (s : State) (n : Nat) : (s.advancePc n).run = s.run := rfl
@[simp] theorem advancePc_fault (s : State) (n : Nat) : (s.advancePc n).fault = s.fault := rfl
@[simp] theorem advancePc_mem (s : State) (n : Nat) : (s.advancePc n).mem = s.mem := rfl
@[simp] theorem advancePc_ovf (s : State) (n : Nat) : (s.advancePc n).ovf = decide (256 ≤ s.pc.toNat + n) := rfl
@[simp] theorem advancePc_out (s : State) (n : Nat) : (s.advancePc n).out = s.out := rfl
@[simp] theorem advancePc_diag (s : State) (n : Nat) : (s.advancePc n).diag = s.diag := rfl
@[simp] theorem advancePc_ticks (s : State) (n : Nat) : (s.advancePc n).ticks = s.ticks := rfl
@[simp] theorem advancePc_config (s : State) (n : Nat) : (s.advancePc n).config = s.config := rfl
@[simp] theorem advancePc_x (s : State) (n : Nat) (q : Reg) : (s.advancePc n).x q = s.x q := rfl
@[simp] theorem advancePc_load (s : State) (n : Nat) (c : Byte) : (s.advancePc n).load c = s.load c := rfl

/-! ### begun -/

@[simp] theorem begun_regs (s : State) (op : Op) : (s.begun op).regs = s.regs := rfl
@[simp] theorem begun_fl (s : State) (op : Op) : (s.begun op).fl = s.fl := rfl
@[simp] theorem begun_ie (s : State) (op : Op) : (s.begun op).ie = s.ie := rfl
@[simp] theorem begun_run (s : State) (op : Op) : (s.begun op).run = s.run := rfl
@[simp] theorem begun_fault (s : State) (op : Op) : (s.begun op).fault = s.fault := rfl
@[simp] theorem begun_mem (s : State) (op : Op) : (s.begun op).mem = s.mem := rfl
@[simp] theorem begun_ovf (s : State) (op : Op) : (s.begun op).ovf = s.ovf := rfl
@[simp] theorem begun_out (s : State) (op : Op) : (s.begun op).out = s.out := rfl
@[simp] theorem begun_diag (s : State) (op : Op) : (s.begun op).diag = s.diag := rfl
@[simp] theorem begun_ticks (s : State) (op : Op) : (s.begun op).ticks = s.ticks := rfl
@[simp] theorem begun_config (s : State) (op : Op) : (s.begun op).config = s.config := rfl
@[simp] theorem begun_pc (s : State) (op : Op) : (s.begun op).pc = s.ownAddress op := rfl
@[simp] theorem begun_x (s : State) (op : Op) (q : Reg) : (s.begun op).x q = s.x q := rfl
@[simp] theorem begun_load (s : State) (op : Op) (c : Byte) : (s.begun op).load c = s.load c := rfl

end Sys2Proof.Machine.State
end

