-- ==== Sys2Proof/Laws/Memory.lean ====
section
/-! SUPPORT. Memory: read after write, the canonical form kept by every write, memories in it that read alike are
equal, and bytes stored in a row. -/

namespace Sys2Proof.Machine

namespace Memory

theorem erase_cons (c : Host.Cell) (rest : Memory) (a : Nat) :
    erase (c :: rest) a = if c.1 = a then erase rest a else c :: erase rest a := by
  by_cases h : c.1 = a <;> simp [erase, h]

theorem readAt_erase (m : Memory) (a k : Nat) :
    (m.erase a).readAt k = if k = a then unlistedByte else m.readAt k := by
  induction m with
  | nil => simp [erase, readAt]
  | cons c rest ih =>
    rw [erase_cons]
    by_cases e : c.1 = a
    · rw [if_pos e, ih]
      by_cases hk : k = a
      · simp [hk]
      · simp [hk, readAt, e, Ne.symm hk]
    · rw [if_neg e]
      by_cases hk : c.1 = k
      · have : k ≠ a := hk ▸ e
        simp [readAt, hk, this]
      · simp [readAt, hk, ih]

theorem readAt_insert (m : Memory) (a k : Nat) (v : Byte) (h : m.readAt a = unlistedByte ∧ ∀ c ∈ m, c.1 ≠ a) :
    (insert a v m).readAt k = if k = a then v else m.readAt k := by
  induction m with
  | nil =>
    by_cases hk : k = a
    · simp [insert, readAt, hk]
    · simp [insert, readAt, hk, Ne.symm hk]
  | cons c rest ih =>
    have hc : c.1 ≠ a := h.2 c (by simp)
    unfold insert
    split
    · by_cases hk : k = a
      · simp [readAt, hk]
      · simp [readAt, hk, Ne.symm hk]
    · have hr : readAt rest a = unlistedByte := by simpa [readAt, hc] using h.1
      have := ih ⟨hr, fun d hd => h.2 d (by simp [hd])⟩
      by_cases hk : c.1 = k
      · have : k ≠ a := hk ▸ hc
        simp [readAt, hk, this]
      · simp [readAt, hk, this]

/-- Read after write, on every list of cells. -/
theorem readAt_writeAt (m : Memory) (a k : Nat) (v : Byte) :
    (m.writeAt a v).readAt k = if k = a then v else m.readAt k := by
  unfold writeAt
  split
  · rename_i hv; rw [readAt_erase, hv]
  · rw [readAt_insert, readAt_erase]
    · split <;> rfl
    · exact ⟨by simp [readAt_erase], by simp [erase]⟩

theorem read_write (m : Memory) (a k v : Byte) :
    (m.write a v).read k = if k = a then v else m.read k := by
  simp [read, write, readAt_writeAt, BitVec.toNat_inj]

theorem wfFrom_cons {lo a : Nat} {v : Byte} {rest : Memory} :
    wfFrom lo ((a, v) :: rest) = true ↔ (lo ≤ a ∧ a < 256 ∧ v ≠ unlistedByte) ∧ wfFrom (a + 1) rest = true := by
  simp [wfFrom, and_assoc]

theorem wfFrom_mono {m : Memory} {lo lo' : Nat} (h : m.wfFrom lo = true) (hl : lo' ≤ lo) :
    m.wfFrom lo' = true := by
  cases m with
  | nil => rfl
  | cons c rest =>
    rw [wfFrom_cons] at h ⊢
    exact ⟨⟨by omega, h.1.2⟩, h.2⟩

theorem wfFrom_erase {m : Memory} {lo : Nat} (a : Nat) (h : m.wfFrom lo = true) :
    (m.erase a).wfFrom lo = true := by
  induction m generalizing lo with
  | nil => rfl
  | cons c rest ih =>
    rw [wfFrom_cons] at h
    rw [erase_cons]
    by_cases e : c.1 = a
    · rw [if_pos e]
      exact wfFrom_mono (ih h.2) (by omega)
    · rw [if_neg e, wfFrom_cons]
      exact ⟨h.1, ih h.2⟩

theorem wfFrom_insert {m : Memory} {lo a : Nat} {v : Byte} (h : m.wfFrom lo = true) (hlo : lo ≤ a)
    (ha : a < 256) (hv : v ≠ unlistedByte) (hn : ∀ c ∈ m, c.1 ≠ a) : (insert a v m).wfFrom lo = true := by
  induction m generalizing lo with
  | nil => rw [insert, wfFrom_cons]; exact ⟨⟨hlo, ha, hv⟩, rfl⟩
  | cons c rest ih =>
    have hc : c.1 ≠ a := hn c (by simp)
    rw [wfFrom_cons] at h
    unfold insert
    split
    · rw [wfFrom_cons, wfFrom_cons]
      exact ⟨⟨hlo, ha, hv⟩, ⟨by omega, h.1.2⟩, h.2⟩
    · rw [wfFrom_cons]
      exact ⟨h.1, ih h.2 (by omega) (fun d hd => hn d (by simp [hd]))⟩

/-- A write keeps the canonical form. -/
theorem wf_write {m : Memory} (a v : Byte) (h : m.wf = true) : (m.write a v).wf = true := by
  unfold write writeAt
  split
  · exact wfFrom_erase _ h
  · rename_i hv
    exact wfFrom_insert (wfFrom_erase _ h) (Nat.zero_le _) a.isLt hv (by simp [erase])

/-- Below its lower bound a canonical memory lists nothing. -/
theorem readAt_below {m : Memory} {lo k : Nat} (h : m.wfFrom lo = true) (hk : k < lo) :
    m.readAt k = unlistedByte := by
  induction m generalizing lo with
  | nil => rfl
  | cons c rest ih =>
    rw [wfFrom_cons] at h
    have : c.1 ≠ k := by omega
    simpa [readAt, this] using ih h.2 (by omega)

theorem wfFrom_ext {m m' : Memory} {lo : Nat} (h : m.wfFrom lo = true) (h' : m'.wfFrom lo = true)
    (hr : ∀ k, k < 256 → m.readAt k = m'.readAt k) : m = m' := by
  induction m generalizing lo m' with
  | nil =>
    cases m' with
    | nil => rfl
    | cons c rest =>
      rw [wfFrom_cons] at h'
      exact absurd (hr c.1 h'.1.2.1).symm (by simpa [readAt] using h'.1.2.2)
  | cons c rest ih =>
    rw [wfFrom_cons] at h
    cases m' with
    | nil => exact absurd (hr c.1 h.1.2.1) (by simpa [readAt] using h.1.2.2)
    | cons d rest' =>
      rw [wfFrom_cons] at h'
      have hc := hr c.1 h.1.2.1
      have hd := hr d.1 h'.1.2.1
      simp only [readAt, if_pos] at hc hd
      have hcd : c.1 = d.1 := by
        rcases Nat.lt_trichotomy c.1 d.1 with hlt | heq | hgt
        · rw [if_neg (by omega), readAt_below h'.2 (by omega)] at hc
          exact absurd hc h.1.2.2
        · exact heq
        · rw [if_neg (by omega), readAt_below h.2 (by omega)] at hd
          exact absurd hd.symm h'.1.2.2
      rw [if_pos hcd.symm] at hc
      have he : c = d := Prod.ext hcd hc
      subst he
      rw [ih h.2 h'.2 (fun k hk => ?_)]
      by_cases hlt : k < c.1 + 1
      · rw [readAt_below h.2 hlt, readAt_below h'.2 hlt]
      · have := hr k hk
        simpa [readAt, show c.1 ≠ k by omega] using this

/-- Two memories in the canonical form that read alike are equal. -/
theorem wf_ext {m m' : Memory} (h : m.wf = true) (h' : m'.wf = true)
    (hr : ∀ a : Byte, m.read a = m'.read a) : m = m' := by
  refine wfFrom_ext h h' (fun k hk => ?_)
  have := hr (BitVec.ofNat 8 k)
  simpa [read, Nat.mod_eq_of_lt hk] using this

theorem wf_writeAll {m : Memory} (a : Byte) (bytes : List Byte) (h : m.wf = true) :
    (m.writeAll a bytes).wf = true := by
  induction bytes generalizing m a with
  | nil => exact h
  | cons v rest ih => exact ih _ (wf_write a v h)

/-- Reading after bytes are stored in a row that does not pass the top of memory. -/
theorem read_writeAll (m : Memory) (a k : Byte) (bytes : List Byte) (hf : a.toNat + bytes.length ≤ 256) :
    (m.writeAll a bytes).read k =
      if a.toNat ≤ k.toNat ∧ k.toNat < a.toNat + bytes.length then bytes.getD (k.toNat - a.toNat) 0
      else m.read k := by
  induction bytes generalizing m a with
  | nil => simp [writeAll]
  | cons v rest ih =>
    simp only [List.length_cons] at hf
    by_cases hlast : a.toNat = 255
    · have : rest = [] := List.length_eq_zero_iff.1 (by omega)
      subst this
      have hk := k.isLt
      simp only [writeAll, read_write, List.length_cons, List.length_nil]
      by_cases e : k = a
      · subst e; simp
      · have : k.toNat ≠ a.toNat := fun h => e (BitVec.eq_of_toNat_eq h)
        rw [if_neg e, if_neg (by omega)]
    · have ha : (a + 1).toNat = a.toNat + 1 := by
        have := a.isLt
        simp [BitVec.toNat_add]; omega
      rw [writeAll, ih _ _ (by omega), ha, read_write]
      have hk : k = a ↔ k.toNat = a.toNat := BitVec.toNat_inj.symm
      simp only [List.length_cons]
      by_cases e : k = a
      · have := hk.1 e
        rw [if_neg (by omega), if_pos e, if_pos (by omega), show k.toNat - a.toNat = 0 by omega]
        simp
      · have hne : k.toNat ≠ a.toNat := fun h => e (hk.2 h)
        by_cases hin : a.toNat + 1 ≤ k.toNat ∧ k.toNat < a.toNat + 1 + rest.length
        · rw [if_pos hin, if_pos (by omega), show k.toNat - a.toNat = k.toNat - (a.toNat + 1) + 1 by omega]
          simp
        · rw [if_neg hin, if_neg e, if_neg (by omega)]

end Memory

theorem State.store_load (s : State) (a v k : Byte) :
    (s.store a v).load k = if k = a then v else s.load k := Memory.read_write s.mem a k v

@[simp] theorem State.store_load_same (s : State) (a v : Byte) : (s.store a v).load a = v := by
  simp [State.store_load]

@[simp] theorem State.store_load_other (s : State) {a k : Byte} (v : Byte) (h : k ≠ a) :
    (s.store a v).load k = s.load k := by
  simp [State.store_load, h]

end Sys2Proof.Machine
end

