-- ==== Sys2Proof/Laws/Registers.lean ====
section
/-! SUPPORT. Registers and register operands: read after write, the register an operand byte names, and what the
register operand check can do. -/

namespace Sys2Proof.Machine

theorem RegFile.read_write (f : RegFile) (r q : Reg) (v : Byte) :
    (f.write r v).read q = if q = r then v else f.read q := by
  cases r <;> cases q <;> rfl

theorem RegFile.write_read (f : RegFile) (r : Reg) : f.write r (f.read r) = f := by
  cases r <;> rfl

theorem State.setX_x (s : State) (r q : Reg) (v : Byte) :
    (s.setX r v).x q = if q = r then v else s.x q := RegFile.read_write s.regs r q v

@[simp] theorem State.setX_x_same (s : State) (r : Reg) (v : Byte) : (s.setX r v).x r = v := by
  simp [State.setX_x]

@[simp] theorem State.setX_x_other (s : State) {r q : Reg} (v : Byte) (h : q ≠ r) :
    (s.setX r v).x q = s.x q := by
  simp [State.setX_x, h]

@[simp] theorem regOf_byte (r : Reg) : regOf r.byte = some r := by
  cases r <;> rfl

/-- A byte names a register exactly when it is that register's byte. -/
theorem regOf_eq_some {b : Byte} {r : Reg} : regOf b = some r ↔ b = r.byte := by
  revert b; cases r <;> decide

/-- A byte names no register exactly when it is above 7. -/
theorem regOf_eq_none {b : Byte} : regOf b = none ↔ 7 < b.toNat := by
  revert b; decide

theorem namesRegister_iff {b : Byte} : namesRegister b = true ↔ b.toNat ≤ 7 := by
  revert b; decide

@[simp] theorem State.reg_byte (s : State) (r : Reg) : s.reg r.byte = .ok r := by
  simp [State.reg]

theorem State.reg_bad (s : State) {b : Byte} (h : 7 < b.toNat) :
    s.reg b = .error (s.raise (.regIndexFault b)) := by
  simp [State.reg, regOf_eq_none.2 h]

/-- What the register check can do: the byte is a register's, or it stops the machine. -/
theorem State.reg_cases (s : State) (b : Byte) :
    (∃ r : Reg, b = r.byte ∧ s.reg b = .ok r) ∨
      (7 < b.toNat ∧ s.reg b = .error (s.raise (.regIndexFault b))) := by
  cases h : regOf b with
  | none => exact .inr ⟨regOf_eq_none.1 h, by simp [State.reg, h]⟩
  | some r => exact .inl ⟨r, regOf_eq_some.1 h, by simp [State.reg, h]⟩

@[simp] theorem oneReg_byte (a : Reg) (s : State) (effect : Reg → Raising State) :
    oneReg a.byte s effect = effect a := by
  simp [oneReg, bind, Except.bind]

@[simp] theorem twoRegs_byte (a b : Reg) (s : State) (effect : Reg → Reg → Raising State) :
    twoRegs a.byte b.byte s effect = effect a b := by
  simp [twoRegs, bind, Except.bind]

theorem oneReg_bad {a : Byte} (s : State) (effect : Reg → Raising State) (h : 7 < a.toNat) :
    oneReg a s effect = .error (s.raise (.regIndexFault a)) := by
  simp [oneReg, State.reg_bad s h, bind, Except.bind]

theorem twoRegs_bad_first {a : Byte} (b : Byte) (s : State) (effect : Reg → Reg → Raising State)
    (h : 7 < a.toNat) : twoRegs a b s effect = .error (s.raise (.regIndexFault a)) := by
  simp [twoRegs, State.reg_bad s h, bind, Except.bind]

theorem twoRegs_bad_second (a : Reg) {b : Byte} (s : State) (effect : Reg → Reg → Raising State)
    (h : 7 < b.toNat) : twoRegs a.byte b s effect = .error (s.raise (.regIndexFault b)) := by
  simp [twoRegs, State.reg_bad s h, bind, Except.bind]

/-- What a one-register instruction can do. -/
theorem oneReg_cases (a : Byte) (s : State) (effect : Reg → Raising State) :
    (∃ ra : Reg, a = ra.byte ∧ oneReg a s effect = effect ra) ∨
      (7 < a.toNat ∧ oneReg a s effect = .error (s.raise (.regIndexFault a))) := by
  obtain ⟨ra, rfl, -⟩ | ⟨h, -⟩ := s.reg_cases a
  · exact .inl ⟨ra, rfl, by simp⟩
  · exact .inr ⟨h, oneReg_bad s effect h⟩

/-- What a two-register instruction can do: the fault names the first bad byte. -/
theorem twoRegs_cases (a b : Byte) (s : State) (effect : Reg → Reg → Raising State) :
    (∃ ra rb : Reg, a = ra.byte ∧ b = rb.byte ∧ twoRegs a b s effect = effect ra rb) ∨
      (∃ c, 7 < c.toNat ∧ twoRegs a b s effect = .error (s.raise (.regIndexFault c)) ∧
        (c = a ∨ a.toNat ≤ 7 ∧ c = b)) := by
  obtain ⟨ra, rfl, -⟩ | ⟨h, -⟩ := s.reg_cases a
  · obtain ⟨rb, rfl, -⟩ | ⟨h, -⟩ := s.reg_cases b
    · exact .inl ⟨ra, rb, rfl, rfl, by simp⟩
    · exact .inr ⟨b, h, twoRegs_bad_second ra s effect h, .inr ⟨by cases ra <;> decide, rfl⟩⟩
  · exact .inr ⟨a, h, twoRegs_bad_first b s effect h, .inl rfl⟩

end Sys2Proof.Machine
end

