-- ==== Sys2Proof/Laws/Ops.lean ====
section
/-! SUPPORT. The shared operations: what a push, a pop, several of them, interrupt entry and the return can do.
Callers cite these and do not unfold the operations. -/

namespace Sys2Proof.Machine

/-! ## The end of a piece of a cycle -/

/-- The state a piece of a cycle leaves, whether or not a raise ended it. -/
def finalState : Raising State → State
  | .ok s => s
  | .error s => s

@[simp] theorem finalState_ok (s : State) : finalState (.ok s) = s := rfl
@[simp] theorem finalState_error (s : State) : finalState (.error s) = s := rfl

/-- An instruction's outcome is always a next state. -/
theorem settle_eq (r : Raising State) : settle r = .next (finalState r) := by
  cases r <;> rfl

theorem outOfBounds_checked {s : State} (kind : BoundsKind) (h : s.config.policy = .fault) :
    s.outOfBounds kind = .error (s.raise (.boundsFault kind)) := by
  simp [State.outOfBounds, h]

theorem outOfBounds_wraps {s : State} (kind : BoundsKind) (h : s.config.policy = .wrap) :
    s.outOfBounds kind = .ok () := by
  simp [State.outOfBounds, h]

theorem policy_cases (s : State) : s.config.policy = .fault ∨ s.config.policy = .wrap := by
  cases s.config.policy <;> simp

theorem trunc8_toNat (n : Nat) : (trunc8 n).toNat = n % 256 := by simp [trunc8]

theorem trunc8_add (v : Byte) (n : Nat) : trunc8 (v.toNat + n) = v + BitVec.ofNat 8 n := by
  apply BitVec.eq_of_toNat_eq; simp [trunc8, BitVec.toNat_add]

theorem trunc8_pred (v : Byte) : trunc8 (v.toNat + 255) = v - 1 := by
  rw [trunc8_add]; exact (BitVec.sub_eq_add_neg v 1).symm ▸ rfl

theorem trunc8_succ (v : Byte) : trunc8 (v.toNat + 1) = v + 1 := trunc8_add v 1

theorem toNat_pred (v : Byte) : (v - 1).toNat = (v.toNat + 255) % 256 := by
  simp [BitVec.toNat_sub, Nat.add_comm]

theorem toNat_succ (v : Byte) : (v + 1).toNat = (v.toNat + 1) % 256 := by
  simp [BitVec.toNat_add]

theorem toNat_sub_byte (v w : Byte) : (v - w).toNat = (256 - w.toNat + v.toNat) % 256 := by
  simp [BitVec.toNat_sub]

/-! ## One push, one pop (R130, R131) -/

theorem spDec_ok {s : State} (h : s.x .r7 ≠ 0x00 ∨ s.config.policy = .wrap) :
    spDec s = .ok (s.setX .r7 (s.x .r7 - 1)) := by
  unfold spDec
  by_cases h0 : s.x .r7 = 0x00
  · have hw := h.resolve_left (fun hn => hn h0)
    simp [h0, outOfBounds_wraps _ hw, bind, Except.bind, pure, Except.pure, trunc8]
  · rw [if_neg h0, trunc8_pred]
    rfl

theorem spDec_fault {s : State} (h0 : s.x .r7 = 0x00) (h : s.config.policy = .fault) :
    spDec s = .error (s.raise (.boundsFault .stackPush)) := by
  simp [spDec, h0, outOfBounds_checked _ h, bind, Except.bind]

/-- What `sp_dec()` can do. -/
theorem spDec_cases (s : State) :
    (spDec s = .ok (s.setX .r7 (s.x .r7 - 1))) ∨
      (s.x .r7 = 0x00 ∧ s.config.policy = .fault ∧ spDec s = .error (s.raise (.boundsFault .stackPush))) := by
  by_cases h0 : s.x .r7 = 0x00
  · obtain h | h := policy_cases s
    · exact .inr ⟨h0, h, spDec_fault h0 h⟩
    · exact .inl (spDec_ok (.inr h))
  · exact .inl (spDec_ok (.inl h0))

theorem spInc_ok {s : State} (h : s.x .r7 ≠ 0xFF ∨ s.config.policy = .wrap) :
    spInc s = .ok (s.setX .r7 (s.x .r7 + 1)) := by
  unfold spInc
  by_cases h0 : s.x .r7 = 0xFF
  · have hw := h.resolve_left (fun hn => hn h0)
    simp [h0, outOfBounds_wraps _ hw, bind, Except.bind, pure, Except.pure, trunc8]
  · rw [if_neg h0, trunc8_succ]
    rfl

theorem spInc_fault {s : State} (h0 : s.x .r7 = 0xFF) (h : s.config.policy = .fault) :
    spInc s = .error (s.raise (.boundsFault .stackPop)) := by
  simp [spInc, h0, outOfBounds_checked _ h, bind, Except.bind]

/-- What `sp_inc()` can do. -/
theorem spInc_cases (s : State) :
    (spInc s = .ok (s.setX .r7 (s.x .r7 + 1))) ∨
      (s.x .r7 = 0xFF ∧ s.config.policy = .fault ∧ spInc s = .error (s.raise (.boundsFault .stackPop))) := by
  by_cases h0 : s.x .r7 = 0xFF
  · obtain h | h := policy_cases s
    · exact .inr ⟨h0, h, spInc_fault h0 h⟩
    · exact .inl (spInc_ok (.inr h))
  · exact .inl (spInc_ok (.inl h0))

/-- The state after a push that succeeds. -/
def pushed (v : Byte) (s : State) : State := (s.setX .r7 (s.x .r7 - 1)).store (s.x .r7 - 1) v

theorem push_ok {s : State} (v : Byte) (h : s.x .r7 ≠ 0x00 ∨ s.config.policy = .wrap) :
    push v s = .ok (pushed v s) := by
  simp [push, pushed, spDec_ok h, bind, Except.bind, pure, Except.pure]

theorem push_fault {s : State} (v : Byte) (h0 : s.x .r7 = 0x00) (h : s.config.policy = .fault) :
    push v s = .error (s.raise (.boundsFault .stackPush)) := by
  simp [push, spDec_fault h0 h, bind, Except.bind]

/-- What `push(v)` can do. -/
theorem push_cases (v : Byte) (s : State) :
    push v s = .ok (pushed v s) ∨
      (s.x .r7 = 0x00 ∧ s.config.policy = .fault ∧ push v s = .error (s.raise (.boundsFault .stackPush))) := by
  obtain h | ⟨h0, h, he⟩ := spDec_cases s
  · exact .inl (by simp [push, pushed, h, bind, Except.bind, pure, Except.pure])
  · exact .inr ⟨h0, h, push_fault v h0 h⟩

theorem pop_ok {s : State} (h : s.x .r7 ≠ 0xFF ∨ s.config.policy = .wrap) :
    pop s = .ok (s.load (s.x .r7), s.setX .r7 (s.x .r7 + 1)) := by
  simp [pop, spInc_ok h, bind, Except.bind, pure, Except.pure]

theorem pop_fault {s : State} (h0 : s.x .r7 = 0xFF) (h : s.config.policy = .fault) :
    pop s = .error (s.raise (.boundsFault .stackPop)) := by
  simp [pop, spInc_fault h0 h, bind, Except.bind]

/-- What `pop()` can do. -/
theorem pop_cases (s : State) :
    (pop s = .ok (s.load (s.x .r7), s.setX .r7 (s.x .r7 + 1))) ∨
      (s.x .r7 = 0xFF ∧ s.config.policy = .fault ∧ pop s = .error (s.raise (.boundsFault .stackPop))) := by
  obtain h | ⟨h0, h, he⟩ := spInc_cases s
  · exact .inl (by simp [pop, h, bind, Except.bind, pure, Except.pure])
  · exact .inr ⟨h0, h, pop_fault h0 h⟩

/-! ## Several pushes -/

/-- The state after pushes that all succeed, the first value first. -/
def pushedAll : List Byte → State → State
  | [], s => s
  | v :: rest, s => pushedAll rest (pushed v s)

@[simp] theorem pushed_sp (v : Byte) (s : State) : (pushed v s).x .r7 = s.x .r7 - 1 := by
  simp [pushed]

theorem pushed_x (v : Byte) (s : State) {r : Reg} (h : r ≠ .r7) : (pushed v s).x r = s.x r := by
  simp [pushed, h]

theorem pushed_load (v : Byte) (s : State) (a : Byte) :
    (pushed v s).load a = if a = s.x .r7 - 1 then v else s.load a := by
  simp [pushed, State.store_load]

@[simp] theorem pushed_config (v : Byte) (s : State) : (pushed v s).config = s.config := rfl

/-- Everything but the registers and memory is as it was. -/
theorem pushedAll_rest (vs : List Byte) (s : State) :
    pushedAll vs s = { s with regs := (pushedAll vs s).regs, mem := (pushedAll vs s).mem } := by
  induction vs generalizing s with
  | nil => rfl
  | cons v rest ih => rw [pushedAll, ih]; rfl

theorem pushedAll_config (vs : List Byte) (s : State) : (pushedAll vs s).config = s.config := by
  rw [pushedAll_rest]

theorem pushedAll_sp (vs : List Byte) (s : State) :
    (pushedAll vs s).x .r7 = s.x .r7 - BitVec.ofNat 8 vs.length := by
  induction vs generalizing s with
  | nil => simp [pushedAll]
  | cons v rest ih =>
    rw [pushedAll, ih, pushed_sp, List.length_cons, Nat.add_comm, BitVec.ofNat_add]
    apply BitVec.eq_of_toNat_eq
    simp [BitVec.toNat_sub, BitVec.toNat_add]
    omega

theorem pushedAll_x (vs : List Byte) (s : State) {r : Reg} (h : r ≠ .r7) :
    (pushedAll vs s).x r = s.x r := by
  induction vs generalizing s with
  | nil => rfl
  | cons v rest ih => rw [pushedAll, ih, pushed_x v s h]

/-- The distance of a cell below the top of the stack: 0 for the cell the next push writes. -/
def depth (s : State) (a : Byte) : Nat := (s.x .r7 - 1 - a).toNat

theorem depth_pushed {v : Byte} {s : State} {a : Byte} :
    depth (pushed v s) a = if depth s a = 0 then 255 else depth s a - 1 := by
  simp only [depth, pushed_sp, toNat_sub_byte _ a, toNat_pred]
  have h1 := (s.x .r7).isLt
  have h2 := a.isLt
  split <;> omega

theorem depth_eq_zero {s : State} {a : Byte} : depth s a = 0 ↔ a = s.x .r7 - 1 := by
  rw [depth, ← BitVec.toNat_inj (x := a)]
  simp only [toNat_sub_byte _ a, toNat_pred]
  have h1 := (s.x .r7).isLt
  have h2 := a.isLt
  omega

/-- Reading after pushes: the k-th value stands k cells below the first, every other cell is as it was. -/
theorem pushedAll_load (vs : List Byte) (s : State) (a : Byte) (h : vs.length ≤ 256) :
    (pushedAll vs s).load a = if depth s a < vs.length then vs.getD (depth s a) 0 else s.load a := by
  induction vs generalizing s with
  | nil => simp [pushedAll]
  | cons v rest ih =>
    simp only [List.length_cons] at h
    rw [pushedAll, ih _ (by omega), depth_pushed, pushed_load, List.length_cons]
    by_cases h0 : depth s a = 0
    · rw [if_pos h0, if_neg (by omega), if_pos (depth_eq_zero.1 h0), if_pos (by omega), h0]
      simp
    · rw [if_neg h0, if_neg (fun e => h0 (depth_eq_zero.2 e))]
      by_cases hl : depth s a - 1 < rest.length
      · rw [if_pos hl, if_pos (by omega)]
        obtain ⟨k, hk⟩ : ∃ k, depth s a = k + 1 := ⟨depth s a - 1, by omega⟩
        simp [hk]
      · rw [if_neg hl, if_neg (by omega)]

theorem pushAll_ok {vs : List Byte} {s : State} (h : vs.length ≤ (s.x .r7).toNat ∨ s.config.policy = .wrap) :
    pushAll vs s = .ok (pushedAll vs s) := by
  induction vs generalizing s with
  | nil => rfl
  | cons v rest ih =>
    simp only [List.length_cons] at h
    have h1 : s.x .r7 ≠ 0x00 ∨ s.config.policy = .wrap := by
      refine h.imp_left (fun h e => ?_)
      rw [e] at h; simp at h
    have h2 : rest.length ≤ ((pushed v s).x .r7).toNat ∨ (pushed v s).config.policy = .wrap := by
      refine h.imp_left (fun h => ?_)
      have := (s.x .r7).isLt
      rw [pushed_sp, toNat_pred]; omega
    simp [pushAll, push_ok v h1, pushedAll, bind, Except.bind, ih h2]

/-- Pushes that do not all fit: those that fit stay, and the next one raises. -/
theorem pushAll_fault {vs : List Byte} {s : State} (h : (s.x .r7).toNat < vs.length)
    (hp : s.config.policy = .fault) :
    pushAll vs s = .error ((pushedAll (vs.take (s.x .r7).toNat) s).raise (.boundsFault .stackPush)) := by
  induction vs generalizing s with
  | nil => simp at h
  | cons v rest ih =>
    by_cases h0 : s.x .r7 = 0x00
    · simp [pushAll, push_fault v h0 hp, h0, pushedAll, bind, Except.bind]
    · have hpos : (s.x .r7).toNat ≠ 0 := fun e => h0 (BitVec.eq_of_toNat_eq (by simpa using e))
      have hsp : ((pushed v s).x .r7).toNat = (s.x .r7).toNat - 1 := by
        have := (s.x .r7).isLt
        rw [pushed_sp, toNat_pred]; omega
      obtain ⟨k, hk⟩ : ∃ k, (s.x .r7).toNat = k + 1 := ⟨(s.x .r7).toNat - 1, by omega⟩
      simp only [List.length_cons] at h
      have := ih (s := pushed v s) (by omega) hp
      rw [hsp, hk, Nat.add_sub_cancel] at this
      simp [pushAll, push_ok v (.inl h0), bind, Except.bind, this, hk, pushedAll]

/-- What several pushes can do. -/
theorem pushAll_cases (vs : List Byte) (s : State) :
    pushAll vs s = .ok (pushedAll vs s) ∨
      (s.config.policy = .fault ∧ (s.x .r7).toNat < vs.length ∧
        pushAll vs s = .error ((pushedAll (vs.take (s.x .r7).toNat) s).raise (.boundsFault .stackPush))) := by
  by_cases h : vs.length ≤ (s.x .r7).toNat
  · exact .inl (pushAll_ok (.inl h))
  · obtain hp | hp := policy_cases s
    · exact .inr ⟨hp, by omega, pushAll_fault (by omega) hp⟩
    · exact .inl (pushAll_ok (.inr hp))

theorem pushedAll_wf (vs : List Byte) {s : State} (h : s.mem.wf = true) : (pushedAll vs s).mem.wf = true := by
  induction vs generalizing s with
  | nil => exact h
  | cons v rest ih => exact ih (Memory.wf_write _ v h)

/-! ## Several pops into registers -/

/-- The state after a pop into a register that succeeds. -/
def popped (r : Reg) (s : State) : State := (s.setX .r7 (s.x .r7 + 1)).setX r (s.load (s.x .r7))

theorem popped_sp {r : Reg} (s : State) (h : .r7 ≠ r) : (popped r s).x .r7 = s.x .r7 + 1 := by
  simp [popped, h]

@[simp] theorem popped_x (r : Reg) (s : State) : (popped r s).x r = s.load (s.x .r7) := by
  simp [popped]

theorem popped_x_other {r q : Reg} (s : State) (h : q ≠ r) (h7 : q ≠ .r7) : (popped r s).x q = s.x q := by
  simp [popped, h, h7]

@[simp] theorem popped_load (r : Reg) (s : State) (a : Byte) : (popped r s).load a = s.load a := rfl

/-- The state after pops into registers that all succeed. -/
def poppedAll : List Reg → State → State
  | [], s => s
  | r :: rest, s => poppedAll rest (popped r s)

/-- Everything but the registers is as it was. -/
theorem poppedAll_rest (rs : List Reg) (s : State) :
    poppedAll rs s = { s with regs := (poppedAll rs s).regs } := by
  induction rs generalizing s with
  | nil => rfl
  | cons r rest ih => rw [poppedAll, ih]; rfl

theorem poppedAll_config (rs : List Reg) (s : State) : (poppedAll rs s).config = s.config := by
  rw [poppedAll_rest]

theorem poppedAll_sp {rs : List Reg} (s : State) (h : .r7 ∉ rs) :
    (poppedAll rs s).x .r7 = s.x .r7 + BitVec.ofNat 8 rs.length := by
  induction rs generalizing s with
  | nil => simp [poppedAll]
  | cons r rest ih =>
    simp only [List.mem_cons, not_or] at h
    rw [poppedAll, ih _ h.2, popped_sp _ h.1, List.length_cons, Nat.add_comm,
      BitVec.ofNat_add]
    exact BitVec.add_assoc ..

theorem poppedAll_x_other {rs : List Reg} (s : State) {q : Reg} (h : q ∉ rs) (h7 : q ≠ .r7) :
    (poppedAll rs s).x q = s.x q := by
  induction rs generalizing s with
  | nil => rfl
  | cons r rest ih =>
    simp only [List.mem_cons, not_or] at h
    rw [poppedAll, ih _ h.2, popped_x_other _ h.1 h7]

/-- The k-th register popped holds the byte k cells above the old top. -/
theorem poppedAll_x {rs : List Reg} (s : State) (hn : rs.Nodup) (h7 : .r7 ∉ rs) (k : Nat) (hk : k < rs.length) :
    (poppedAll rs s).x rs[k] = s.load (s.x .r7 + BitVec.ofNat 8 k) := by
  induction rs generalizing s k with
  | nil => simp at hk
  | cons r rest ih =>
    simp only [List.mem_cons, not_or, List.nodup_cons] at h7 hn
    cases k with
    | zero =>
      rw [poppedAll, List.getElem_cons_zero, poppedAll_x_other _ hn.1 (Ne.symm h7.1), popped_x]
      simp
    | succ k =>
      rw [poppedAll, List.getElem_cons_succ, ih _ hn.2 h7.2 k (by simpa using hk),
        popped_sp _ h7.1, popped_load, Nat.add_comm k 1, BitVec.ofNat_add, ← BitVec.add_assoc]
      rfl

theorem popAll_ok {rs : List Reg} {s : State} (h7 : .r7 ∉ rs)
    (h : (s.x .r7).toNat + rs.length ≤ 255 ∨ s.config.policy = .wrap) :
    popAll rs s = .ok (poppedAll rs s) := by
  induction rs generalizing s with
  | nil => rfl
  | cons r rest ih =>
    simp only [List.length_cons, List.mem_cons, not_or] at h h7
    have h1 : s.x .r7 ≠ 0xFF ∨ s.config.policy = .wrap := by
      refine h.imp_left (fun h e => ?_)
      rw [e] at h; simp at h
    have h2 : ((popped r s).x .r7).toNat + rest.length ≤ 255 ∨
        s.config.policy = .wrap := by
      refine h.imp_left (fun h => ?_)
      rw [popped_sp _ h7.1]
      rw [toNat_succ]; omega
    simp only [popAll, pop_ok h1, poppedAll, bind, Except.bind]
    exact ih h7.2 h2

/-- Pops that do not all fit: those that fit stay, and the next one raises. -/
theorem popAll_fault {rs : List Reg} {s : State} (h7 : .r7 ∉ rs) (h : 255 < (s.x .r7).toNat + rs.length)
    (hp : s.config.policy = .fault) :
    popAll rs s =
      .error ((poppedAll (rs.take (255 - (s.x .r7).toNat)) s).raise (.boundsFault .stackPop)) := by
  induction rs generalizing s with
  | nil => have := (s.x .r7).isLt; simp at h; omega
  | cons r rest ih =>
    simp only [List.length_cons, List.mem_cons, not_or] at h h7
    by_cases h0 : s.x .r7 = 0xFF
    · simp [popAll, pop_fault h0 hp, h0, poppedAll, bind, Except.bind]
    · have hlt := (s.x .r7).isLt
      have hne : (s.x .r7).toNat ≠ 255 := fun e => h0 (BitVec.eq_of_toNat_eq (by simpa using e))
      have hsp : ((popped r s).x .r7).toNat = (s.x .r7).toNat + 1 := by
        rw [popped_sp _ h7.1]
        rw [toNat_succ]; omega
      obtain ⟨k, hk⟩ : ∃ k, 255 - (s.x .r7).toNat = k + 1 := ⟨254 - (s.x .r7).toNat, by omega⟩
      have hk' : 255 - ((s.x .r7).toNat + 1) = k := by omega
      have := ih (s := popped r s) h7.2 (by omega) hp
      simp only [hsp, hk'] at this
      simp only [popAll, pop_ok (.inl h0), bind, Except.bind, hk, List.take_succ_cons, poppedAll]
      exact this

/-- What several pops can do. -/
theorem popAll_cases {rs : List Reg} (s : State) (h7 : .r7 ∉ rs) :
    popAll rs s = .ok (poppedAll rs s) ∨
      (s.config.policy = .fault ∧ 255 < (s.x .r7).toNat + rs.length ∧
        popAll rs s =
          .error ((poppedAll (rs.take (255 - (s.x .r7).toNat)) s).raise (.boundsFault .stackPop))) := by
  by_cases h : (s.x .r7).toNat + rs.length ≤ 255
  · exact .inl (popAll_ok h7 (.inl h))
  · obtain hp | hp := policy_cases s
    · exact .inr ⟨hp, by omega, popAll_fault h7 (by omega) hp⟩
    · exact .inl (popAll_ok h7 (.inr hp))

/-! ## Interrupt entry and return (R173, R175) -/

/-- Interrupt entry's state after IE and IS are cleared. -/
def entryCleared (s : State) : State := (s.setIe false).setX .r6 0x00

/-- Interrupt entry's state when its nine pushes fit. -/
def entered (s : State) : State :=
  let t := pushedAll (entryCleared s).frame (entryCleared s)
  t.setPc (t.load interruptVector)

/-- What interrupt entry can do. -/
theorem interruptEntry_cases (s : State) :
    interruptEntry s = .ok (entered s) ∨
      (s.config.policy = .fault ∧ (s.x .r7).toNat < 9 ∧
        interruptEntry s = .error ((pushedAll ((entryCleared s).frame.take (s.x .r7).toNat)
          (entryCleared s)).raise (.boundsFault .stackPush))) := by
  obtain h | ⟨hp, hl, h⟩ := pushAll_cases (entryCleared s).frame (entryCleared s)
  · left
    simp only [interruptEntry, bind, Except.bind, pure, Except.pure]
    rw [show (s.setIe false).setX .r6 0x00 = entryCleared s from rfl, h]
    rfl
  · right
    refine ⟨hp, hl, ?_⟩
    simp only [interruptEntry, bind, Except.bind]
    rw [show (s.setIe false).setX .r6 0x00 = entryCleared s from rfl, h]
    rfl

theorem interruptEntry_ok {s : State} (h : 9 ≤ (s.x .r7).toNat ∨ s.config.policy = .wrap) :
    interruptEntry s = .ok (entered s) := by
  obtain h' | ⟨hp, hl, -⟩ := interruptEntry_cases s
  · exact h'
  · rcases h with h | h
    · omega
    · simp [hp] at h

theorem interruptEntry_fault {s : State} (h : (s.x .r7).toNat < 9) (hp : s.config.policy = .fault) :
    interruptEntry s = .error ((pushedAll ((entryCleared s).frame.take (s.x .r7).toNat)
      (entryCleared s)).raise (.boundsFault .stackPush)) := by
  simp only [interruptEntry, bind, Except.bind]
  rw [show (s.setIe false).setX .r6 0x00 = entryCleared s from rfl, pushAll_fault (by exact h) (by exact hp)]
  rfl

theorem entered_sp (s : State) : (entered s).x .r7 = s.x .r7 - 9 := by
  simp [entered, pushedAll_sp, entryCleared, State.frame]

theorem entered_r6 (s : State) : (entered s).x .r6 = 0x00 := by
  simp [entered, pushedAll_x _ (r := .r6), entryCleared]

theorem entered_x (s : State) {r : Reg} (h6 : r ≠ .r6) (h7 : r ≠ .r7) : (entered s).x r = s.x r := by
  simp [entered, pushedAll_x _ _ h7, entryCleared, h6]

/-- Everything but the registers, memory, PC and IE is as it was. -/
theorem entered_rest (s : State) : entered s =
    { s with regs := (entered s).regs, mem := (entered s).mem, pc := (entered s).pc, ie := false } := by
  have h := pushedAll_rest (entryCleared s).frame (entryCleared s)
  simp only [entered]
  generalize pushedAll (entryCleared s).frame (entryCleared s) = t at h
  rw [h]; rfl

theorem entered_pc (s : State) : (entered s).pc = (entered s).load interruptVector := rfl

/-- Memory after entry: the frame in the nine cells below the old SP, the first value highest. -/
theorem entered_load (s : State) (a : Byte) : (entered s).load a =
    if depth s a < 9 then [s.pc, s.fl, s.x .r0, s.x .r1, s.x .r2, s.x .r3, s.x .r4, s.x .r5, 0].getD (depth s a) 0
    else s.load a := by
  have h := pushedAll_load (entryCleared s).frame (entryCleared s) a (by simp [State.frame])
  have hd : depth (entryCleared s) a = depth s a := by simp [depth, entryCleared]
  simp only [entered, State.setPc_load, h, hd]
  simp [entryCleared, State.frame]

/-- The cell `k + 1` below the old SP is at depth `k`. -/
theorem depth_below (s : State) {k : Nat} (h : k < 256) : depth s (s.x .r7 - BitVec.ofNat 8 (k + 1)) = k := by
  have := (s.x .r7).isLt
  simp only [depth, toNat_sub_byte _ (_ - _), toNat_pred, toNat_sub_byte _ (BitVec.ofNat 8 _), BitVec.toNat_ofNat]
  omega

theorem depth_spec (s : State) (a : Byte) : a = s.x .r7 - BitVec.ofNat 8 (depth s a + 1) := by
  have h1 := (s.x .r7).isLt
  have h2 := a.isLt
  apply BitVec.eq_of_toNat_eq
  simp only [depth, toNat_sub_byte _ a, toNat_pred, toNat_sub_byte _ (BitVec.ofNat 8 _), BitVec.toNat_ofNat]
  omega

/-- The k-th value of the frame stands in the cell `k + 1` below the old SP. -/
theorem entered_cell (s : State) {k : Nat} (h : k < 9) : (entered s).load (s.x .r7 - BitVec.ofNat 8 (k + 1)) =
    [s.pc, s.fl, s.x .r0, s.x .r1, s.x .r2, s.x .r3, s.x .r4, s.x .r5, 0].getD k 0 := by
  rw [entered_load, depth_below s (by omega), if_pos h]

/-- The return's state after R6 to R0 and FL are popped. -/
def returnedFlags (s : State) : State :=
  let t := poppedAll returnOrder s
  (t.setX .r7 (t.x .r7 + 1)).setFl (t.load (t.x .r7))

theorem returnedFlags_config (s : State) : (returnedFlags s).config = s.config := by
  simp only [returnedFlags, State.setFl_config, State.setX_config, poppedAll_config]

/-- The return's state when its nine pops fit. -/
def returned (s : State) : State :=
  let t := returnedFlags s
  ((t.setX .r7 (t.x .r7 + 1)).setPc (t.load (t.x .r7))).setIe true

theorem returnedFlags_sp (s : State) : (returnedFlags s).x .r7 = s.x .r7 + 8 := by
  simp only [returnedFlags, State.setFl_x, State.setX_x_same]
  rw [poppedAll_sp s (by decide), BitVec.add_assoc]
  rfl

theorem returnedFlags_x (s : State) {r : Reg} (h : r ≠ .r7) : (returnedFlags s).x r = (poppedAll returnOrder s).x r := by
  simp only [returnedFlags, State.setFl_x, State.setX_x_other _ _ h]

theorem poppedAll_load (rs : List Reg) (s : State) (a : Byte) : (poppedAll rs s).load a = s.load a := by
  rw [poppedAll_rest]; rfl

theorem returnedFlags_fl (s : State) : (returnedFlags s).fl = s.load (s.x .r7 + 7) := by
  simp only [returnedFlags, State.setFl_fl]
  rw [poppedAll_sp s (by decide), poppedAll_load]
  rfl

/-- Everything but the registers and FL is as it was. -/
theorem returnedFlags_rest (s : State) :
    returnedFlags s = { s with regs := (returnedFlags s).regs, fl := (returnedFlags s).fl } := by
  have h := poppedAll_rest returnOrder s
  simp only [returnedFlags]
  generalize poppedAll returnOrder s = t at h
  rw [h]; rfl

theorem returned_sp (s : State) : (returned s).x .r7 = s.x .r7 + 9 := by
  simp only [returned, State.setIe_x, State.setPc_x, State.setX_x_same, returnedFlags_sp, BitVec.add_assoc]
  rfl

theorem returned_pc (s : State) : (returned s).pc = s.load (s.x .r7 + 8) := by
  simp only [returned, State.setIe_pc, State.setPc_pc, returnedFlags_sp]
  rw [returnedFlags_rest]; rfl

theorem returned_fl (s : State) : (returned s).fl = s.load (s.x .r7 + 7) := by
  simp only [returned, State.setIe_fl, State.setPc_fl, State.setX_fl, returnedFlags_fl]

/-- The k-th register of the return's order holds the byte k cells above the old top. -/
theorem returned_x (s : State) {k : Nat} (h : k < 7) :
    (returned s).x (returnOrder[k]'h) = s.load (s.x .r7 + BitVec.ofNat 8 k) := by
  have hm : returnOrder[k]'h ∈ returnOrder := List.getElem_mem h
  have h7 : returnOrder[k]'h ≠ .r7 := fun e => by rw [e] at hm; exact absurd hm (by decide)
  simp only [returned, State.setIe_x, State.setPc_x, State.setX_x_other _ _ h7, returnedFlags_x s h7]
  exact poppedAll_x (rs := returnOrder) s (by decide) (by decide) k h

/-- Everything but the registers, FL, PC and IE is as it was. -/
theorem returned_rest (s : State) : returned s =
    { s with regs := (returned s).regs, fl := (returned s).fl, pc := (returned s).pc, ie := true } := by
  have h := returnedFlags_rest s
  simp only [returned]
  generalize returnedFlags s = t at h
  rw [h]; rfl

/-- What the return can do: all nine pops, or a raise at one of the first seven, at FL's, at PC's. -/
theorem interruptReturn_cases (s : State) :
    interruptReturn s = .ok (returned s) ∨
      (s.config.policy = .fault ∧ 246 < (s.x .r7).toNat ∧
        ((248 < (s.x .r7).toNat ∧ interruptReturn s =
            .error ((poppedAll (returnOrder.take (255 - (s.x .r7).toNat)) s).raise (.boundsFault .stackPop))) ∨
          ((s.x .r7).toNat = 248 ∧ interruptReturn s =
            .error ((poppedAll returnOrder s).raise (.boundsFault .stackPop))) ∨
          ((s.x .r7).toNat = 247 ∧ interruptReturn s =
            .error ((returnedFlags s).raise (.boundsFault .stackPop))))) := by
  have h7 : Reg.r7 ∉ returnOrder := by decide
  have hsp : ((poppedAll returnOrder s).x .r7).toNat = ((s.x .r7).toNat + 7) % 256 := by
    rw [poppedAll_sp s h7]; simp [BitVec.toNat_add, returnOrder]
  have hpol : (poppedAll returnOrder s).config = s.config := poppedAll_config _ s
  have hlt := (s.x .r7).isLt
  obtain h | ⟨hp, hl, h⟩ := popAll_cases s h7
  · obtain h' | ⟨h0, hp, h'⟩ := pop_cases (poppedAll returnOrder s)
    · have hpol' : (returnedFlags s).config = s.config := returnedFlags_config s
      have hsp' : ((returnedFlags s).x .r7).toNat = ((s.x .r7).toNat + 8) % 256 := by
        simp only [returnedFlags, State.setFl_x, State.setX_x_same, toNat_succ, hsp]; omega
      obtain h'' | ⟨h0, hp, h''⟩ := pop_cases (returnedFlags s)
      · left
        simp only [interruptReturn, bind, Except.bind, pure, Except.pure, h, h']
        rw [show (((poppedAll returnOrder s).setX .r7 _).setFl _) = returnedFlags s from rfl, h'']
        rfl
      · right
        have h0' : ((returnedFlags s).x .r7).toNat = 255 := by rw [h0]; rfl
        refine ⟨hpol' ▸ hp, by omega, .inr (.inr ⟨by omega, ?_⟩)⟩
        simp only [interruptReturn, bind, Except.bind, h, h']
        rw [show (((poppedAll returnOrder s).setX .r7 _).setFl _) = returnedFlags s from rfl, h'']
    · right
      have h0' : ((poppedAll returnOrder s).x .r7).toNat = 255 := by rw [h0]; rfl
      refine ⟨hpol ▸ hp, by omega, .inr (.inl ⟨by omega, ?_⟩)⟩
      simp only [interruptReturn, bind, Except.bind, h, h']
  · right
    have hl' : 255 < (s.x .r7).toNat + 7 := hl
    refine ⟨hp, by omega, .inl ⟨by omega, ?_⟩⟩
    simp only [interruptReturn, bind, Except.bind, h]

theorem interruptReturn_ok {s : State} (h : (s.x .r7).toNat ≤ 246 ∨ s.config.policy = .wrap) :
    interruptReturn s = .ok (returned s) := by
  obtain h' | ⟨hp, hl, -⟩ := interruptReturn_cases s
  · exact h'
  · rcases h with h | h
    · omega
    · simp [hp] at h

end Sys2Proof.Machine
end

