-- ==== Sys2Proof/Laws/Exec.lean ====
section
/-! SUPPORT. What an instruction can do, said once for all of them: every outcome is a next state, and the frame of
each piece of state. -/

namespace Sys2Proof.Machine

/-- A fault that may be raised in `s`: a `BoundsFault` only under the fault policy, a `RegIndexFault` only for a
byte above 7. -/
def Fault.raisableIn (s : State) : Fault → Prop
  | .divideByZero => True
  | .boundsFault _ => s.config.policy = .fault
  | .regIndexFault b => 8 ≤ b.toNat

/-- What an instruction leaves as it was, piece by piece of the state. -/
structure ExecFrame (i : Instr) (s t : State) : Prop where
  config : t.config = s.config
  ticks : t.ticks = s.ticks
  diag : t.diag = s.diag
  flags : i.op ≠ .cmp → i.op ≠ .iret → t.fl = s.fl
  ie : t.ie = s.ie ∨ (i.op = .iret ∧ t.ie = true)
  mem : i.op ≠ .st → i.op ≠ .push → i.op ≠ .call → t.mem = s.mem
  memWf : s.mem.wf = true → t.mem.wf = true
  regs : ∀ r, ¬ mayWrite i r → t.x r = s.x r
  out : t.out = s.out ∨ (∃ r : Reg, i = .prn r.byte ∧ t.out = s.out ++ [.prn (s.x r)]) ∨
    (∃ r : Reg, i = .pra r.byte ∧ t.out = s.out ++ [.pra (s.x r)])
  status : (t.run = s.run ∧ t.fault = s.fault) ∨ (t.run = false ∧ t.fault = s.fault ∧ i.op = .hlt) ∨
    (t.run = false ∧ ∃ f, t.fault = some f ∧ f.raisableIn s)
  aluPc : i.op.isAlu = true → t.pc = s.pc
  ovf : t.ovf = s.ovf ∨ ((i.op = .jeq ∨ i.op = .jne) ∧
    t.ovf = decide (256 ≤ (s.ownAddress i.op).toNat + 2)) := by exact .inl rfl

/-- CALL's return address: the low 8 bits of PC + 2, or `BoundsFault(PcOverflow)` past 0xFF under `fault`. -/
theorem returnAddress_cases (s : State) :
    returnAddress s = .ok (trunc8 (s.pc.toNat + 2)) ∨ (0xFF < s.pc.toNat + 2 ∧ s.config.policy = .fault ∧
      returnAddress s = .error (s.raise (.boundsFault .pcOverflow))) := by
  unfold returnAddress
  by_cases hlt : 0xFF < s.pc.toNat + 2
  · obtain hp | hp := policy_cases s
    · exact .inr ⟨hlt, hp, by simp [hlt, outOfBounds_checked _ hp, bind, Except.bind]⟩
    · exact .inl (by simp [hlt, outOfBounds_wraps _ hp, bind, Except.bind, pure, Except.pure])
  · exact .inl (by simp [hlt, pure, Except.pure])

namespace ExecFrame

/-- A raise with nothing done before it. -/
theorem raise (i : Instr) (s : State) {f : Fault} (h : f.raisableIn s) : ExecFrame i s (s.raise f) where
  config := rfl
  ticks := rfl
  diag := rfl
  flags _ _ := rfl
  ie := .inl rfl
  mem _ _ _ := rfl
  memWf h := h
  regs _ _ := rfl
  out := .inl rfl
  status := .inr (.inr ⟨rfl, f, rfl, h⟩)
  aluPc _ := rfl

/-- Registers the instruction may write are written, and nothing else. -/
theorem onlyRegs {i : Instr} {s t : State} (h : t = { s with regs := t.regs })
    (hr : ∀ r, ¬ mayWrite i r → t.x r = s.x r) : ExecFrame i s t where
  config := by rw [h]
  ticks := by rw [h]
  diag := by rw [h]
  flags _ _ := by rw [h]
  ie := .inl (by rw [h])
  mem _ _ _ := by rw [h]
  memWf hw := by rw [h]; exact hw
  regs := hr
  out := .inl (by rw [h])
  status := .inl ⟨by rw [h], by rw [h]⟩
  aluPc _ := by rw [h]
  ovf := .inl (by rw [h])

/-- As `onlyRegs`, and then a raise. -/
theorem onlyRegs_raise {i : Instr} {s t : State} {f : Fault} (h : t = { s with regs := t.regs })
    (hr : ∀ r, ¬ mayWrite i r → t.x r = s.x r) (hf : f.raisableIn s) : ExecFrame i s (t.raise f) :=
  have e := onlyRegs h hr
  { e with
    status := .inr (.inr ⟨rfl, f, rfl, hf⟩) }

/-- A one-register instruction, given the frame of its effect. -/
theorem ofOneReg {i : Instr} {a : Byte} {s : State} {effect : Reg → Raising State}
    (h : ∀ r : Reg, a = r.byte → ExecFrame i s (finalState (effect r))) :
    ExecFrame i s (finalState (oneReg a s effect)) := by
  obtain ⟨r, ha, he⟩ | ⟨hb, he⟩ := oneReg_cases a s effect
  · rw [he]; exact h r ha
  · rw [he]; exact raise i s hb

/-- A two-register instruction, given the frame of its effect. -/
theorem ofTwoRegs {i : Instr} {a b : Byte} {s : State} {effect : Reg → Reg → Raising State}
    (h : ∀ r q : Reg, a = r.byte → ExecFrame i s (finalState (effect r q))) :
    ExecFrame i s (finalState (twoRegs a b s effect)) := by
  obtain ⟨r, q, ha, -, he⟩ | ⟨c, hc, he, -⟩ := twoRegs_cases a b s effect
  · rw [he]; exact h r q ha
  · rw [he]; exact raise i s hc

/-- One register written that the instruction may write. -/
theorem setX {i : Instr} {s : State} {r : Reg} (v : Byte) (hw : mayWrite i r) : ExecFrame i s (s.setX r v) :=
  onlyRegs rfl fun _ hq => State.setX_x_other s v fun e => hq (e ▸ hw)

theorem aluPair {i : Instr} {a b : Byte} {f : Byte → Byte → Byte} {s : State}
    (hw : ∀ r : Reg, a = r.byte → mayWrite i r) : ExecFrame i s (finalState (aluPair f a b s)) :=
  ofTwoRegs fun r _ ha => setX _ (hw r ha)

theorem aluOne {i : Instr} {a : Byte} {f : Byte → Byte} {s : State}
    (hw : ∀ r : Reg, a = r.byte → mayWrite i r) : ExecFrame i s (finalState (aluOne f a s)) :=
  ofOneReg fun r ha => setX _ (hw r ha)

theorem aluDivide {i : Instr} {a b : Byte} {f : Byte → Byte → Byte} {s : State}
    (hw : ∀ r : Reg, a = r.byte → mayWrite i r) : ExecFrame i s (finalState (aluDivide f a b s)) :=
  ofTwoRegs fun r q ha => by
    by_cases h : s.x q = 0
    · rw [if_pos h]; exact raise i s trivial
    · rw [if_neg h]; exact setX _ (hw r ha)

/-- An update of PC, and of the overflow latch. -/
theorem pcOnly {i : Instr} {s t : State} (h : t = { s with pc := t.pc, ovf := t.ovf })
    (ho : t.ovf = s.ovf ∨ ((i.op = .jeq ∨ i.op = .jne) ∧ t.ovf = decide (256 ≤ (s.ownAddress i.op).toNat + 2)))
    (ha : i.op.isAlu = false) : ExecFrame i s t where
  config := by rw [h]
  ticks := by rw [h]
  diag := by rw [h]
  flags _ _ := by rw [h]
  ie := .inl (by rw [h])
  mem _ _ _ := by rw [h]
  memWf hw := by rw [h]; exact hw
  regs r _ := by rw [h]; rfl
  out := .inl (by rw [h])
  status := .inl ⟨by rw [h], by rw [h]⟩
  aluPc h' := by simp [ha] at h'
  ovf := ho

/-- An instruction other than JEQ and JNE that starts its own pseudocode with PC at its address. -/
theorem begun {i : Instr} {op : Op} {s t : State} (e : ExecFrame i (s.begun op) t) (ha : i.op.isAlu = false)
    (hj : ¬ (i.op = .jeq ∨ i.op = .jne)) : ExecFrame i s t :=
  { e with
    ovf := e.ovf.imp_right fun h => absurd h.1 hj
    status := e.status.imp_right (Or.imp_right fun ⟨h, f, hf, hr⟩ => ⟨h, f, hf, by cases f <;> exact hr⟩)
    aluPc := fun h => by simp [ha] at h }

theorem branch {i : Instr} {a : Byte} {taken : Bool} {s : State} (hj : i.op = .jeq ∨ i.op = .jne)
    (ha : i.op.isAlu = false) : ExecFrame i s (finalState (branch i.op taken a s)) :=
  ofOneReg fun r _ => by
    cases taken
    · exact pcOnly rfl (.inr ⟨hj, rfl⟩) ha
    · exact pcOnly rfl (.inl rfl) ha

theorem push {a : Byte} {s : State} : ExecFrame (.push a) s (finalState (oneReg a s fun ra => do
    let s ← spDec s
    return s.store (s.x .r7) (s.x ra))) :=
  ofOneReg fun r _ => by
    obtain h | ⟨-, hp, h⟩ := spDec_cases s
    · simp only [h, bind, Except.bind, pure, Except.pure, finalState_ok]
      exact
        { config := rfl, ticks := rfl, diag := rfl, flags := fun _ _ => rfl, ie := .inl rfl
          mem := fun _ hn _ => absurd rfl hn
          memWf := Memory.wf_write _ _
          regs := fun q hq => State.setX_x_other s _ hq
          out := .inl rfl, status := .inl ⟨rfl, rfl⟩, aluPc := fun h => by cases h }
    · simp only [h, bind, Except.bind, finalState_error]
      exact raise _ s hp

theorem pop {a : Byte} {s : State} :
    ExecFrame (.pop a) s (finalState (oneReg a s fun ra => spInc (s.setX ra (s.load (s.x .r7))))) :=
  ofOneReg fun r ha => by
    have hr : ∀ q, ¬ mayWrite (.pop a) q → q ≠ r ∧ q ≠ .r7 := fun q hq =>
      ⟨fun e => hq (.inl (e ▸ ha)), fun e => hq (.inr e)⟩
    obtain h | ⟨-, hp, h⟩ := spInc_cases (s.setX r (s.load (s.x .r7)))
    · rw [h]
      exact onlyRegs rfl fun q hq => by simp [(hr q hq).1, (hr q hq).2]
    · rw [h]
      exact onlyRegs_raise rfl (fun q hq => by simp [(hr q hq).1]) hp

/-- CALL past its register check, from the state in which PC is A. -/
theorem callFrom {a : Byte} (ra : Reg) (s : State) : ExecFrame (.call a) s (finalState (do
    let ret ← returnAddress s
    let s ← Machine.push ret s
    return s.setPc (s.x ra))) := by
  obtain h | ⟨-, hp, h⟩ := returnAddress_cases s
  · rw [h]
    obtain h | ⟨-, hp, h⟩ := push_cases (trunc8 (s.pc.toNat + 2)) s
    · simp only [bind, Except.bind, h, pure, Except.pure, finalState_ok]
      exact
        { config := rfl, ticks := rfl, diag := rfl, flags := fun _ _ => rfl, ie := .inl rfl
          mem := fun _ _ hn => absurd rfl hn
          memWf := Memory.wf_write _ _
          regs := fun q hq => pushed_x (trunc8 (s.pc.toNat + 2)) s hq
          out := .inl rfl, status := .inl ⟨rfl, rfl⟩, aluPc := fun h => by cases h }
    · simp only [bind, Except.bind, h, finalState_error]
      exact raise _ s hp
  · simp only [h, bind, Except.bind, finalState_error]
    exact raise _ s hp

theorem call {a : Byte} {s : State} : ExecFrame (.call a) s (finalState (oneReg a s fun ra => do
    let s := s.begun .call
    let ret ← returnAddress s
    let s ← Machine.push ret s
    return s.setPc (s.x ra))) :=
  ofOneReg fun r _ => begun (callFrom r (s.begun .call)) rfl (by simp [Instr.op])

/-- RET from the state in which PC is A. -/
theorem retFrom (s : State) : ExecFrame .ret s (finalState (do
    let (target, s) ← Machine.pop s
    return s.setPc target)) := by
  obtain h | ⟨-, hp, h⟩ := pop_cases s
  · simp only [h, bind, Except.bind, pure, Except.pure, finalState_ok]
    exact
      { config := rfl, ticks := rfl, diag := rfl, flags := fun _ _ => rfl, ie := .inl rfl
        mem := fun _ _ _ => rfl, memWf := id
        regs := fun q hq => State.setX_x_other s _ hq
        out := .inl rfl, status := .inl ⟨rfl, rfl⟩, aluPc := fun h => by cases h }
  · simp only [h, bind, Except.bind, finalState_error]
    exact raise _ s hp

theorem ret {s : State} : ExecFrame .ret s (finalState (do
    let (target, s) ← Machine.pop (s.begun .ret)
    return s.setPc target)) :=
  begun (retFrom (s.begun .ret)) rfl (by simp [Instr.op])

theorem iret {s : State} : ExecFrame .iret s (finalState (interruptReturn s)) := by
  have hpop : ∀ rs, poppedAll rs s = { s with regs := (poppedAll rs s).regs } := fun rs => poppedAll_rest rs s
  have hfl := returnedFlags_rest s
  have hregs : ∀ (t : State) r, ¬ mayWrite .iret r → t.x r = s.x r := fun _ _ h => absurd trivial h
  obtain h | ⟨hp, -, ⟨-, h⟩ | ⟨-, h⟩ | ⟨-, h⟩⟩ := interruptReturn_cases s <;> rw [h]
  · have hr := returned_rest s
    simp only [finalState_ok]
    exact
      { config := by rw [hr], ticks := by rw [hr], diag := by rw [hr]
        flags := fun _ hn => absurd rfl hn, ie := .inr ⟨rfl, by rw [hr]⟩
        mem := fun _ _ _ => by rw [hr]
        memWf := fun hw => by rw [hr]; exact hw
        regs := hregs _
        out := .inl (by rw [hr]), status := .inl ⟨by rw [hr], by rw [hr]⟩, aluPc := fun h => by cases h
        ovf := .inl (by rw [hr]) }
  · exact onlyRegs_raise (hpop _) (hregs _) hp
  · exact onlyRegs_raise (hpop _) (hregs _) hp
  · simp only [finalState_error]
    exact
      { config := by rw [hfl]; rfl, ticks := by rw [hfl]; rfl, diag := by rw [hfl]; rfl
        flags := fun _ hn => absurd rfl hn, ie := .inl (by rw [hfl]; rfl)
        mem := fun _ _ _ => by rw [hfl]; rfl
        memWf := fun hw => by rw [hfl]; exact hw
        regs := hregs _
        out := .inl (by rw [hfl]; rfl), status := .inr (.inr ⟨rfl, _, rfl, hp⟩), aluPc := fun h => by cases h
        ovf := .inl (by rw [hfl]; rfl) }

end ExecFrame

/-- Every instruction, on every operand and from every state, answers a next state, with this frame. -/
theorem exec_frame (i : Instr) (s : State) : ∃ t, exec i s = .next t ∧ ExecFrame i s t := by
  cases i
  case hlt =>
    exact ⟨_, rfl,
      { config := rfl, ticks := rfl, diag := rfl, flags := fun _ _ => rfl, ie := .inl rfl
        mem := fun _ _ _ => rfl, memWf := id, regs := fun _ _ => rfl, out := .inl rfl
        status := .inr (.inl ⟨rfl, rfl, rfl⟩), aluPc := fun _ => rfl }⟩
  case ldi a imm => exact ⟨_, settle_eq _, .ofOneReg fun r ha => .setX _ ha⟩
  case prn a =>
    exact ⟨_, settle_eq _, .ofOneReg fun r ha =>
      { config := rfl, ticks := rfl, diag := rfl, flags := fun _ _ => rfl, ie := .inl rfl
        mem := fun _ _ _ => rfl, memWf := id, regs := fun _ _ => rfl
        out := .inr (.inl ⟨r, congrArg Instr.prn ha, rfl⟩), status := .inl ⟨rfl, rfl⟩, aluPc := fun _ => rfl }⟩
  case pra a =>
    exact ⟨_, settle_eq _, .ofOneReg fun r ha =>
      { config := rfl, ticks := rfl, diag := rfl, flags := fun _ _ => rfl, ie := .inl rfl
        mem := fun _ _ _ => rfl, memWf := id, regs := fun _ _ => rfl
        out := .inr (.inr ⟨r, congrArg Instr.pra ha, rfl⟩), status := .inl ⟨rfl, rfl⟩, aluPc := fun _ => rfl }⟩
  case ld a b => exact ⟨_, settle_eq _, .ofTwoRegs fun r _ ha => .setX _ ha⟩
  case st a b =>
    exact ⟨_, settle_eq _, .ofTwoRegs fun r q _ =>
      { config := rfl, ticks := rfl, diag := rfl, flags := fun _ _ => rfl, ie := .inl rfl
        mem := fun hn _ _ => absurd rfl hn, memWf := Memory.wf_write _ _, regs := fun _ _ => rfl
        out := .inl rfl, status := .inl ⟨rfl, rfl⟩, aluPc := fun _ => rfl }⟩
  case push a => exact ⟨_, settle_eq _, .push⟩
  case pop a => exact ⟨_, settle_eq _, .pop⟩
  case call a => exact ⟨_, settle_eq _, .call⟩
  case ret => exact ⟨_, settle_eq _, .ret⟩
  case jmp a => exact ⟨_, settle_eq _, .ofOneReg fun _ _ => .pcOnly rfl (.inl rfl) rfl⟩
  case jeq a => exact ⟨_, settle_eq _, .branch (.inl rfl) rfl⟩
  case jne a => exact ⟨_, settle_eq _, .branch (.inr rfl) rfl⟩
  case iret => exact ⟨_, settle_eq _, .begun .iret rfl (by simp [Instr.op])⟩
  case cmp a b =>
    exact ⟨_, settle_eq _, .ofTwoRegs fun r q _ =>
      { config := rfl, ticks := rfl, diag := rfl, flags := fun hn _ => absurd rfl hn, ie := .inl rfl
        mem := fun _ _ _ => rfl, memWf := id, regs := fun _ _ => rfl
        out := .inl rfl, status := .inl ⟨rfl, rfl⟩, aluPc := fun _ => rfl }⟩
  case div a b => exact ⟨_, settle_eq _, .aluDivide fun r ha => ha⟩
  case mod a b => exact ⟨_, settle_eq _, .aluDivide fun r ha => ha⟩
  case inc a => exact ⟨_, settle_eq _, .aluOne fun r ha => ha⟩
  case dec a => exact ⟨_, settle_eq _, .aluOne fun r ha => ha⟩
  case not a => exact ⟨_, settle_eq _, .aluOne fun r ha => ha⟩
  all_goals exact ⟨_, settle_eq _, .aluPair fun r ha => ha⟩

end Sys2Proof.Machine
end

