-- ==== Sys2Proof/Laws/PerInstr.lean ====
section
/-! SUPPORT. The family `EncodeLength`, per instruction: an encoding has the length that its own opcode byte gives
(spec/30_encoding.md R61, R64), under every legal OPCODE_MAP. -/

namespace Sys2Proof

/-- The bytes of the instruction are as many as bits 7 to 6 of its first byte say. -/
def Laws.EncodeLength.Statement (i : Instr) : Prop :=
  ∀ m : OpcodeMap, m.legal = true → (encode m i).length = instrLen (m.byte i.op)

theorem Laws.EncodeLength.every (i : Instr) : Laws.EncodeLength.Statement i := fun m h => by
  rw [encode_length, instrLen, (OpcodeMap.legal_fields h i.op).1]

theorem Laws.EncodeLength.hlt : Laws.EncodeLength.Statement .hlt := Laws.EncodeLength.every _
theorem Laws.EncodeLength.ldi (a imm : Byte) : Laws.EncodeLength.Statement (.ldi a imm) := Laws.EncodeLength.every _
theorem Laws.EncodeLength.prn (a : Byte) : Laws.EncodeLength.Statement (.prn a) := Laws.EncodeLength.every _
theorem Laws.EncodeLength.pra (a : Byte) : Laws.EncodeLength.Statement (.pra a) := Laws.EncodeLength.every _
theorem Laws.EncodeLength.ld (a b : Byte) : Laws.EncodeLength.Statement (.ld a b) := Laws.EncodeLength.every _
theorem Laws.EncodeLength.st (a b : Byte) : Laws.EncodeLength.Statement (.st a b) := Laws.EncodeLength.every _
theorem Laws.EncodeLength.push (a : Byte) : Laws.EncodeLength.Statement (.push a) := Laws.EncodeLength.every _
theorem Laws.EncodeLength.pop (a : Byte) : Laws.EncodeLength.Statement (.pop a) := Laws.EncodeLength.every _
theorem Laws.EncodeLength.call (a : Byte) : Laws.EncodeLength.Statement (.call a) := Laws.EncodeLength.every _
theorem Laws.EncodeLength.ret : Laws.EncodeLength.Statement .ret := Laws.EncodeLength.every _
theorem Laws.EncodeLength.jmp (a : Byte) : Laws.EncodeLength.Statement (.jmp a) := Laws.EncodeLength.every _
theorem Laws.EncodeLength.jeq (a : Byte) : Laws.EncodeLength.Statement (.jeq a) := Laws.EncodeLength.every _
theorem Laws.EncodeLength.jne (a : Byte) : Laws.EncodeLength.Statement (.jne a) := Laws.EncodeLength.every _
theorem Laws.EncodeLength.iret : Laws.EncodeLength.Statement .iret := Laws.EncodeLength.every _
theorem Laws.EncodeLength.add (a b : Byte) : Laws.EncodeLength.Statement (.add a b) := Laws.EncodeLength.every _
theorem Laws.EncodeLength.sub (a b : Byte) : Laws.EncodeLength.Statement (.sub a b) := Laws.EncodeLength.every _
theorem Laws.EncodeLength.mul (a b : Byte) : Laws.EncodeLength.Statement (.mul a b) := Laws.EncodeLength.every _
theorem Laws.EncodeLength.div (a b : Byte) : Laws.EncodeLength.Statement (.div a b) := Laws.EncodeLength.every _
theorem Laws.EncodeLength.mod (a b : Byte) : Laws.EncodeLength.Statement (.mod a b) := Laws.EncodeLength.every _
theorem Laws.EncodeLength.inc (a : Byte) : Laws.EncodeLength.Statement (.inc a) := Laws.EncodeLength.every _
theorem Laws.EncodeLength.dec (a : Byte) : Laws.EncodeLength.Statement (.dec a) := Laws.EncodeLength.every _
theorem Laws.EncodeLength.cmp (a b : Byte) : Laws.EncodeLength.Statement (.cmp a b) := Laws.EncodeLength.every _
theorem Laws.EncodeLength.and (a b : Byte) : Laws.EncodeLength.Statement (.and a b) := Laws.EncodeLength.every _
theorem Laws.EncodeLength.not (a : Byte) : Laws.EncodeLength.Statement (.not a) := Laws.EncodeLength.every _
theorem Laws.EncodeLength.or (a b : Byte) : Laws.EncodeLength.Statement (.or a b) := Laws.EncodeLength.every _
theorem Laws.EncodeLength.xor (a b : Byte) : Laws.EncodeLength.Statement (.xor a b) := Laws.EncodeLength.every _
theorem Laws.EncodeLength.shl (a b : Byte) : Laws.EncodeLength.Statement (.shl a b) := Laws.EncodeLength.every _
theorem Laws.EncodeLength.shr (a b : Byte) : Laws.EncodeLength.Statement (.shr a b) := Laws.EncodeLength.every _

end Sys2Proof
end

