-- ==== Sys2Proof/Laws/Step.lean ====
section
/-! SUPPORT. What a cycle can do, phase by phase, and the one inversion lemma of the step. -/

namespace Sys2Proof.Machine

/-! ## The interrupt check and the timer check -/

theorem interruptCheck_taken {s : State} (hi : s.ie = true) (hp : s.x .r5 &&& s.x .r6 ≠ 0) :
    interruptCheck s = interruptEntry s := by
  have : (s.ie && s.pending != 0) = true := by simpa [State.pending, hi] using hp
  rw [interruptCheck, if_pos this]

theorem interruptCheck_idle {s : State} (h : s.ie = false ∨ s.x .r5 &&& s.x .r6 = 0) :
    interruptCheck s = .ok s := by
  rcases h with h | h <;> simp [interruptCheck, State.pending, h]

/-- What the interrupt check leaves as it was, also where the entry's pushes fault. -/
structure CheckFrame (s t : State) : Prop where
  config : t.config = s.config
  ticks : t.ticks = s.ticks
  diag : t.diag = s.diag
  out : t.out = s.out
  fl : t.fl = s.fl
  ovf : t.ovf = s.ovf
  memWf : s.mem.wf = true → t.mem.wf = true
  idle : (s.ie = true ∧ s.x .r5 &&& s.x .r6 ≠ 0) ∨ (t.mem = s.mem ∧ t.ie = s.ie)
  ie : s.ie = false → t.ie = false

/-- The frame of interrupt entry's pushes. -/
theorem CheckFrame.pushes {s : State} (hq : s.ie = true ∧ s.x .r5 &&& s.x .r6 ≠ 0) (vs : List Byte) :
    CheckFrame s (pushedAll vs (entryCleared s)) ∧ (pushedAll vs (entryCleared s)).run = s.run ∧
      (pushedAll vs (entryCleared s)).fault = s.fault := by
  have hc := pushedAll_rest vs (entryCleared s)
  have hw := pushedAll_wf vs (s := entryCleared s)
  generalize pushedAll vs (entryCleared s) = t at hc hw
  exact ⟨⟨by rw [hc]; rfl, by rw [hc]; rfl, by rw [hc]; rfl, by rw [hc]; rfl, by rw [hc]; rfl, by rw [hc]; rfl,
    hw, .inl hq, fun _ => by rw [hc]; rfl⟩, by rw [hc]; rfl, by rw [hc]; rfl⟩

/-- PC is not in the frame. -/
theorem CheckFrame.setPc {s t : State} (h : CheckFrame s t) (v : Byte) : CheckFrame s (t.setPc v) :=
  ⟨h.config, h.ticks, h.diag, h.out, h.fl, h.ovf, h.memWf, h.idle, h.ie⟩

/-- RUN and FAULT are not in the frame. -/
theorem CheckFrame.raise {s t : State} (h : CheckFrame s t) (f : Fault) : CheckFrame s (t.raise f) :=
  ⟨h.config, h.ticks, h.diag, h.out, h.fl, h.ovf, h.memWf, h.idle, h.ie⟩

/-- What the interrupt check can do: go on, running as before, or stop with `BoundsFault(StackPush)`. -/
theorem interruptCheck_cases (s : State) :
    (∃ t, interruptCheck s = .ok t ∧ CheckFrame s t ∧ t.run = s.run ∧ t.fault = s.fault) ∨
      (∃ t, interruptCheck s = .error t ∧ CheckFrame s t ∧ t.run = false ∧
        t.fault = some (.boundsFault .stackPush) ∧ s.config.policy = .fault) := by
  by_cases hq : s.ie = false ∨ s.x .r5 &&& s.x .r6 = 0
  · exact .inl ⟨s, interruptCheck_idle hq, ⟨rfl, rfl, rfl, rfl, rfl, rfl, id, .inr ⟨rfl, rfl⟩, id⟩, rfl, rfl⟩
  · simp only [not_or, Bool.not_eq_false] at hq
    rw [interruptCheck_taken hq.1 hq.2]
    obtain h | ⟨hp, -, h⟩ := interruptEntry_cases s
    · have hc := CheckFrame.pushes hq (entryCleared s).frame
      exact .inl ⟨_, h, hc.1.setPc _, hc.2.1, hc.2.2⟩
    · exact .inr ⟨_, h, (CheckFrame.pushes hq _).1.raise _, rfl, rfl, hp⟩

/-- The timer check changes R6 and the ticks to come, nothing else. -/
theorem timerCheck_eq (s : State) : timerCheck s =
    (s.setX .r6 (if s.tick then s.x .r6 ||| 0b00000001 else s.x .r6)).dropTick := by
  unfold timerCheck
  cases s.tick
  · simp only [Bool.false_eq_true, if_false, State.setX, State.x, RegFile.write_read]
  · rfl

/-! ## Operand fetch (R83) -/

theorem fetchOperand_ok {s : State} {k : Nat} (h : s.pc.toNat + k ≤ 0xFF ∨ s.config.policy = .wrap) :
    s.fetchOperand k = .ok (s.load (s.pc + BitVec.ofNat 8 k)) := by
  unfold State.fetchOperand
  by_cases hlt : 0xFF < s.pc.toNat + k
  · have hw := h.resolve_left (by omega)
    simp only [hlt, if_true, outOfBounds_wraps _ hw, bind, Except.bind, pure, Except.pure, trunc8_add]
  · simp only [hlt, if_false, pure, Except.pure, trunc8_add]

theorem fetchOperand_fault {s : State} {k : Nat} (h : 0xFF < s.pc.toNat + k) (hp : s.config.policy = .fault) :
    s.fetchOperand k = .error (s.raise (.boundsFault .operandFetch)) := by
  simp only [State.fetchOperand, h, if_true, outOfBounds_checked _ hp, bind, Except.bind]

/-- What fetching one operand can do. -/
theorem operand_cases (s : State) (len k : Nat) :
    (∃ v, s.operand len k = .ok v) ∨
      (s.config.policy = .fault ∧ s.operand len k = .error (s.raise (.boundsFault .operandFetch))) := by
  unfold State.operand
  by_cases hk : k < len
  · simp only [hk, if_true]
    by_cases h : s.pc.toNat + k ≤ 0xFF
    · exact .inl ⟨_, fetchOperand_ok (.inl h)⟩
    · obtain hp | hp := policy_cases s
      · exact .inr ⟨hp, fetchOperand_fault (by omega) hp⟩
      · exact .inl ⟨_, fetchOperand_ok (.inr hp)⟩
  · exact .inl ⟨0, by simp only [hk, if_false]⟩

theorem operand_ok {s : State} {len k : Nat} (h : s.pc.toNat + len ≤ 256 ∨ s.config.policy = .wrap) :
    s.operand len k = .ok (if k < len then s.load (s.pc + BitVec.ofNat 8 k) else 0) := by
  unfold State.operand
  by_cases hk : k < len
  · simp only [hk, if_true, fetchOperand_ok (h.imp_left fun _ => (by omega : s.pc.toNat + k ≤ 0xFF))]
  · simp only [hk, if_false]

/-- The operand bytes of an instruction that lies in memory, or whose addresses wrap. -/
theorem fetchOperands_ok {s : State} {len : Nat} (h : s.pc.toNat + len ≤ 256 ∨ s.config.policy = .wrap) :
    s.fetchOperands len = .ok (if 1 < len then s.load (s.pc + 1) else 0,
      if 2 < len then s.load (s.pc + 2) else 0) := by
  unfold State.fetchOperands
  rw [operand_ok h, operand_ok h]
  rfl

/-- An operand byte above 0xFF under the fault policy. -/
theorem fetchOperands_fault {s : State} {len : Nat} (hl : len ≤ 3) (h : 256 < s.pc.toNat + len)
    (hp : s.config.policy = .fault) :
    s.fetchOperands len = .error (s.raise (.boundsFault .operandFetch)) := by
  have hlt := s.pc.isLt
  unfold State.fetchOperands
  by_cases h1 : 0xFF < s.pc.toNat + 1
  · rw [State.operand, if_pos (by omega), fetchOperand_fault h1 hp]
    rfl
  · have ho : s.operand len 1 = .ok (s.load (s.pc + 1)) := by
      rw [State.operand, if_pos (by omega), fetchOperand_ok (.inl (by omega))]
      rfl
    rw [ho, State.operand, if_pos (by omega), fetchOperand_fault (by omega) hp]
    rfl

/-- What the operand fetch can do. -/
theorem fetchOperands_cases (s : State) (len : Nat) :
    (∃ a b, s.fetchOperands len = .ok (a, b)) ∨
      (s.config.policy = .fault ∧
        s.fetchOperands len = .error (s.raise (.boundsFault .operandFetch))) := by
  unfold State.fetchOperands
  obtain ⟨v, h1⟩ | ⟨hp, h1⟩ := operand_cases s len 1
  · obtain ⟨w, h2⟩ | ⟨hp, h2⟩ := operand_cases s len 2
    · exact .inl ⟨v, w, by rw [h1, h2]; rfl⟩
    · exact .inr ⟨hp, by rw [h1, h2]; rfl⟩
  · exact .inr ⟨hp, by rw [h1]; rfl⟩

/-! ## The PC advance (R84) -/

/-- The PC advance changes PC and the overflow latch only. -/
theorem phaseAdvance_rest (ir : Byte) (s : State) :
    phaseAdvance ir s = { s with pc := (phaseAdvance ir s).pc, ovf := (phaseAdvance ir s).ovf } := by
  unfold phaseAdvance
  split <;> rfl

/-- After the PC advance for an instruction, `ownAddress` is the address it was fetched from. -/
theorem phaseAdvance_ownAddress (s : State) (op : Op) :
    (phaseAdvance (s.config.opcodes.byte op) s).ownAddress op = s.pc := by
  unfold phaseAdvance
  split
  · rename_i hb
    simp [State.ownAddress, hb]
  · rename_i hb
    simp [State.ownAddress, hb, trunc8_add]

/-! ## The end of a cycle (R89) -/

/-- What the end-of-cycle check can do. -/
theorem endOfCycle_cases (advanced s : State) :
    (s.run = true ∧ s.ovf = true ∧ s.config.policy = .fault ∧
        endOfCycle advanced s =
          ((s.setPc (overflowSum advanced s)).raise (.boundsFault .pcOverflow)).setOvf false) ∨
      ((s.run = false ∨ s.ovf = false ∨ s.config.policy = .wrap) ∧
        endOfCycle advanced s = s.setOvf false) := by
  unfold endOfCycle
  by_cases h : s.run = true ∧ s.ovf = true
  · obtain hp | hp := policy_cases s
    · exact .inl ⟨h.1, h.2, hp, by simp [h, outOfBounds_checked (s := s.setPc (overflowSum advanced s)) _ hp]⟩
    · exact .inr ⟨.inr (.inr hp), by simp [h, outOfBounds_wraps (s := s.setPc (overflowSum advanced s)) _ hp]⟩
  · refine .inr ⟨?_, by simp [h]⟩
    cases hr : s.run <;> simp_all

/-! ## The step -/

/-- What a step of a running machine that fetches in `s'` comes to. -/
inductive CycleEnd (s' t : State) : Prop
  /-- the opcode byte names no instruction -/
  | unrecognised (hd : decodeOp s'.config.opcodes (s'.load s'.pc) = none)
      (ht : t = endOfCycle (phaseAdvance (s'.load s'.pc) s')
        (Machine.unrecognised (s'.load s'.pc) s'.pc (phaseAdvance (s'.load s'.pc) s')))
  /-- an operand byte lies above 0xFF under the fault policy -/
  | operandFetch (op : Op) (hd : decodeOp s'.config.opcodes (s'.load s'.pc) = some op)
      (hp : s'.config.policy = .fault) (ht : t = s'.raise (.boundsFault .operandFetch))
  /-- the instruction executes -/
  | executed (op : Op) (a b : Byte) (u : State) (hd : decodeOp s'.config.opcodes (s'.load s'.pc) = some op)
      (hf : s'.fetchOperands (instrLen (s'.load s'.pc)) = .ok (a, b))
      (he : exec (op.instr a b) (phaseAdvance (s'.load s'.pc) s') = .next u)
      (ht : t = endOfCycle (phaseAdvance (s'.load s'.pc) s') u)

theorem fetchAndExecute_cases (s' : State) : ∃ t, fetchAndExecute s' = .next t ∧ CycleEnd s' t := by
  cases hd : decodeOp s'.config.opcodes (s'.load s'.pc) with
  | none => exact ⟨_, by simp only [fetchAndExecute, hd], .unrecognised hd rfl⟩
  | some op =>
    obtain ⟨a, b, hf⟩ | ⟨hp, hf⟩ := fetchOperands_cases s' (instrLen (s'.load s'.pc))
    · obtain ⟨u, hu, -⟩ := exec_frame (op.instr a b) (phaseAdvance (s'.load s'.pc) s')
      exact ⟨endOfCycle _ u, by simp only [fetchAndExecute, hd, hf, hu, finishCycle],
        .executed op a b u hd hf hu rfl⟩
    · exact ⟨_, by simp only [fetchAndExecute, hd, hf], .operandFetch op hd hp rfl⟩

theorem step_halted {s : State} (h : s.run = false) : step s = .next s := by
  simp [step, machineStep, h]

theorem step_entryFault {s t : State} (hr : s.run = true) (h : interruptCheck (s.setOvf false) = .error t) :
    step s = .next t := by
  simp [step, machineStep, hr, cycle, h]

theorem step_fetches {s s' : State} (h : FetchesIn s s') : step s = fetchAndExecute s' := by
  obtain ⟨hr, s1, h1, rfl⟩ := h
  simp [step, machineStep, hr, cycle, h1]

/-- The inversion of the step: a stopped machine stays; or the interrupt entry's pushes fault; or the cycle
fetches in a state that the interrupt and timer checks leave, and ends in one of the three ways. -/
theorem step_cases (s : State) :
    (s.run = false ∧ step s = .next s) ∨
      (∃ t, s.run = true ∧ interruptCheck (s.setOvf false) = .error t ∧ step s = .next t) ∨
      (∃ s' t, FetchesIn s s' ∧ step s = .next t ∧ CycleEnd s' t) := by
  cases hr : s.run with
  | false => exact .inl ⟨rfl, step_halted hr⟩
  | true =>
    cases h : interruptCheck (s.setOvf false) with
    | error t => exact .inr (.inl ⟨t, rfl, rfl, step_entryFault hr h⟩)
    | ok s1 =>
      have hf : FetchesIn s (timerCheck s1) := ⟨hr, s1, h, rfl⟩
      obtain ⟨t, ht, he⟩ := fetchAndExecute_cases (timerCheck s1)
      exact .inr (.inr ⟨_, t, hf, (step_fetches hf).trans ht, he⟩)

/-- What the two checks leave as it was in the state a cycle fetches in. -/
theorem fetchesIn_frame {s s' : State} (h : FetchesIn s s') :
    s'.config = s.config ∧ s'.ticks = s.ticks.tail ∧ s'.diag = s.diag ∧ s'.out = s.out ∧ s'.fl = s.fl ∧
      s'.run = true ∧ s'.fault = s.fault ∧ s'.ovf = false ∧ (s.mem.wf = true → s'.mem.wf = true) ∧
      (TakesInterrupt s ∨ (s'.mem = s.mem ∧ s'.ie = s.ie)) ∧ (s.ie = false → s'.ie = false) := by
  obtain ⟨hr, s1, h1, rfl⟩ := h
  obtain ⟨t, ht, hc, hrun, hfault⟩ | ⟨t, ht, -⟩ := interruptCheck_cases (s.setOvf false)
  · rw [h1] at ht
    cases ht
    rw [timerCheck_eq]
    exact ⟨hc.config, by simp [hc.ticks], hc.diag, hc.out, hc.fl, hrun.trans hr, hfault, hc.ovf, hc.memWf,
      hc.idle.imp_left fun h => ⟨hr, h.1, h.2⟩, hc.ie⟩
  · rw [h1] at ht; cases ht

end Sys2Proof.Machine
end

