-- ==== Sys2Proof/Tests/Slice0.lean ====
section
/-! SUPPORT. The model's own tests. Expected values are from spec/95_test_vectors.md (S and V numbers) or worked out
by hand from the rule named; words are written out from the table of spec/30_encoding.md R66. Last: a witness for
the hypotheses of each statement. -/

namespace Sys2Proof.Tests

open Sys2Proof.Machine

/-! ## Helpers -/

/-- The reset state with PC, FL, registers and memory cells given. -/
def st (pc fl : Byte) (regs : List (Reg × Byte)) (cells : List (Byte × Byte)) : State :=
  let s := regs.foldl (fun s p => s.setX p.1 p.2) ((State.reset.setPc pc).setFl fl)
  cells.foldl (fun s p => s.store p.1 p.2) s

/-- The same machine under BOUNDS_POLICY = wrap. -/
def wrapping (s : State) : State := { s with config := { s.config with policy := .wrap } }

/-- An OPCODE_MAP with bit 4 clear in CALL, JMP, JEQ and RET, which R66 allows. -/
def bitClearMap : OpcodeMap :=
  { OpcodeMap.default with call := 0b01000000, jmp := 0b01000010, jeq := 0b01000011, ret := 0b00000010 }

/-- The same machine under that map. -/
def bitClear (s : State) : State := { s with config := { s.config with opcodes := bitClearMap } }

/-- A view of the next state; `none` where there is no next state. -/
def look {α : Type} (f : State → α) : Host.Outcome State Fault Refusal → Option α
  | .next s => some (f s)
  | .fault _ => none
  | .refused _ => none

/-- A view of the end of a piece of a cycle: whether it was raised, and the view. -/
def ended {α : Type} (f : State → α) : Raising State → Bool × α
  | .ok s => (false, f s)
  | .error s => (true, f s)

/-! ## Well-formedness: one ill-formed term for each check (R65) -/

theorem test_wf_refuses_first_operand : (Instr.add 0x08 0x00).wf = false := by decide
theorem test_wf_refuses_second_operand : (Instr.add 0x00 0x80).wf = false := by decide
theorem test_wf_refuses_only_operand : (Instr.jmp 0xFF).wf = false := by decide
theorem test_wf_takes_register_seven : (Instr.add 0x07 0x07).wf = true := by decide
theorem test_wf_takes_any_immediate : (Instr.ldi 0x00 0xFF).wf = true ∧ (Instr.ldi 0x08 0x00).wf = false := by
  decide

/-! ## Decoding: a word written out for each row of R66, and the unrecognised bytes of V1 -/

/-- The instruction, under the default map, of a byte sequence that is one instruction long. -/
def reads (bytes : List Byte) : Option Instr :=
  match decode OpcodeMap.default bytes with
  | .ok (i, []) => some i
  | _ => none

theorem test_decode_no_operand : reads [0b00000001] = some .hlt ∧ reads [0b00010001] = some .ret ∧
    reads [0b00010011] = some .iret := by decide
theorem test_decode_output : reads [0b01000111, 0b00000011] = some (.prn 3) ∧
    reads [0b01001000, 0b00000100] = some (.pra 4) := by decide
theorem test_decode_data_move : reads [0b10000010, 0b00000101, 0b11111111] = some (.ldi 5 255) ∧
    reads [0b10000011, 0b00000001, 0b00000010] = some (.ld 1 2) ∧
    reads [0b10000100, 0b00000001, 0b00000010] = some (.st 1 2) := by decide
theorem test_decode_stack : reads [0b01000101, 0b00000111] = some (.push 7) ∧
    reads [0b01000110, 0b00000110] = some (.pop 6) := by decide
theorem test_decode_control : reads [0b01010000, 0b00000001] = some (.call 1) ∧
    reads [0b01010100, 0b00000010] = some (.jmp 2) ∧ reads [0b01010101, 0b00000011] = some (.jeq 3) ∧
    reads [0b01010110, 0b00000100] = some (.jne 4) := by decide
theorem test_decode_alu_one : reads [0b01100101, 0b00000010] = some (.inc 2) ∧
    reads [0b01100110, 0b00000011] = some (.dec 3) ∧ reads [0b01101001, 0b00000100] = some (.not 4) := by decide
theorem test_decode_alu_arithmetic : reads [0b10100000, 0b00000001, 0b00000010] = some (.add 1 2) ∧
    reads [0b10100001, 0b00000001, 0b00000010] = some (.sub 1 2) ∧
    reads [0b10100010, 0b00000001, 0b00000010] = some (.mul 1 2) ∧
    reads [0b10100011, 0b00000001, 0b00000010] = some (.div 1 2) ∧
    reads [0b10100100, 0b00000001, 0b00000010] = some (.mod 1 2) ∧
    reads [0b10100111, 0b00000001, 0b00000010] = some (.cmp 1 2) := by decide
theorem test_decode_alu_bitwise : reads [0b10101000, 0b00000001, 0b00000010] = some (.and 1 2) ∧
    reads [0b10101010, 0b00000001, 0b00000010] = some (.or 1 2) ∧
    reads [0b10101011, 0b00000001, 0b00000010] = some (.xor 1 2) ∧
    reads [0b10101100, 0b00000001, 0b00000010] = some (.shl 1 2) ∧
    reads [0b10101101, 0b00000001, 0b00000010] = some (.shr 1 2) := by decide
theorem test_decode_unrecognised : [0x00, 0x40, 0x52, 0x57, 0xA5, 0xAE, 0xC0, 0xFF].map
    (decodeOp OpcodeMap.default) = List.replicate 8 none := by decide
theorem test_lengths : [0x00, 0x40, 0xA5, 0xC0, 0xFF].map instrLen = [1, 2, 3, 4, 4] := by decide
theorem test_decode_refuses_by_name : decode OpcodeMap.default [] = .error .noBytes ∧
    decode OpcodeMap.default [0x52, 0x00] = .error (.unrecognised 0x52) ∧
    decode OpcodeMap.default [0x82, 0x00] = .error (.truncated .ldi) := ⟨rfl, rfl, rfl⟩
theorem test_table_word : decodeTableWord 24 0x020182 = some (.ldi 1 2) ∧ decodeTableWord 8 0x82 = some (.ldi 0 0) ∧
    decodeTableWord 16 0x0347 = some (.prn 3) ∧ decodeTableWord 8 0x00 = none := by decide

/-! ## The step: a word of the opcode table runs first after reset -/

theorem test_fetch_word_after_reset :
    look (fun t => (t.x .r1, t.pc)) (step (State.reset.withFetchWord 24 0x020182)) = some (0x02, 0x03) := by decide
/-- With an interrupt pending the word stands at the handler's address, which is where the step fetches. -/
theorem test_fetch_word_in_handler :
    look (fun t => (t.x .r1, t.pc, t.ie))
      (step ((st 0x10 0 [(.r5, 1), (.r6, 1)] [(0xF8, 0x20)]).withFetchWord 24 0x020182)) =
        some (0x02, 0x23, false) := by decide

/-! ## ALU (V3 to V8) -/

theorem test_add_loses_carry : look (fun t => (t.x .r0, t.x .r1, t.fl))
    (exec (.add 0 1) (st 0 4 [(.r0, 0xF0), (.r1, 0x20)] [])) = some (0x10, 0x20, 4) := by decide
theorem test_sub_loses_borrow : look (fun t => t.x .r0)
    (exec (.sub 0 1) (st 0 0 [(.r0, 0x05), (.r1, 0x07)] [])) = some 0xFE := by decide
theorem test_mul_truncates : look (fun t => t.x .r0)
    (exec (.mul 0 1) (st 0 0 [(.r0, 0xFF), (.r1, 0xFF)] [])) = some 0x01 := by decide
theorem test_div_quotient : look (fun t => t.x .r0)
    (exec (.div 0 1) (st 0 0 [(.r0, 0xC8), (.r1, 0x07)] [])) = some 0x1C := by decide
theorem test_div_by_zero : look (fun t => (t.x .r0, t.run, t.fault))
    (exec (.div 0 1) (st 0 0 [(.r0, 0x0A)] [])) = some (0x0A, false, some .divideByZero) := by decide
theorem test_mod_remainder : look (fun t => t.x .r0)
    (exec (.mod 0 1) (st 0 0 [(.r0, 0xFF), (.r1, 0x10)] [])) = some 0x0F := by decide
theorem test_mod_by_zero : look (fun t => (t.run, t.fault))
    (exec (.mod 0 1) (st 0 0 [(.r0, 0x0A)] [])) = some (false, some .divideByZero) := by decide
theorem test_inc_wraps : look (fun t => (t.x .r2, t.fl)) (exec (.inc 2) (st 0 4 [(.r2, 0xFF)] [])) =
    some (0x00, 4) := by decide
theorem test_dec_wraps : look (fun t => t.x .r2) (exec (.dec 2) (st 0 0 [] [])) = some 0xFF := by decide
theorem test_not : look (fun t => t.x .r2) (exec (.not 2) (st 0 0 [(.r2, 0xA5)] [])) = some 0x5A := by decide
theorem test_cmp_unsigned : look (fun t => t.fl) (exec (.cmp 0 1) (st 0 0xFF [(.r0, 0xFF), (.r1, 1)] [])) =
    some 0x02 := by decide
theorem test_cmp_less : look (fun t => t.fl) (exec (.cmp 0 1) (st 0 0xFF [(.r0, 5), (.r1, 9)] [])) =
    some 0x04 := by decide
theorem test_and : look (fun t => t.x .r0) (exec (.and 0 1) (st 0 0 [(.r0, 0xCC), (.r1, 0xAA)] [])) =
    some 0x88 := by decide
theorem test_or : look (fun t => t.x .r0) (exec (.or 0 1) (st 0 0 [(.r0, 0xCC), (.r1, 0xAA)] [])) =
    some 0xEE := by decide
theorem test_xor : look (fun t => t.x .r0) (exec (.xor 0 1) (st 0 0 [(.r0, 0xCC), (.r1, 0xAA)] [])) =
    some 0x66 := by decide
theorem test_shl_same_register : look (fun t => t.x .r0) (exec (.shl 0 0) (st 0 0 [(.r0, 2)] [])) = some 8 := by
  decide
theorem test_shl_by_eight : look (fun t => t.x .r0) (exec (.shl 0 1) (st 0 0 [(.r0, 0xFF), (.r1, 8)] [])) =
    some 0x00 := by decide
theorem test_shr_is_logical : look (fun t => t.x .r0) (exec (.shr 0 1) (st 0 0 [(.r0, 0xFF), (.r1, 1)] [])) =
    some 0x7F := by decide
theorem test_shr_whole_amount : look (fun t => t.x .r0)
    (exec (.shr 0 1) (st 0 0 [(.r0, 0x80), (.r1, 0x80)] [])) = some 0x00 := by decide

/-! ## Data movement and the stack (V9, V10) -/

theorem test_ldi_moves_stack : look (fun t => t.x .r7) (exec (.ldi 7 0x80) (st 0 0 [] [])) = some 0x80 := by decide
theorem test_ld_same_register : look (fun t => t.x .r1) (exec (.ld 1 1) (st 0 0 [(.r1, 0x80)] [(0x80, 0x2A)])) =
    some 0x2A := by decide
theorem test_st_address_then_data : look (fun t => (t.load 0xF8, t.load 0x11))
    (exec (.st 0 1) (st 0 0 [(.r0, 0xF8), (.r1, 0x11)] [])) = some (0x11, 0x00) := by decide
theorem test_push_sp : look (fun t => (t.x .r7, t.load 0xF3)) (exec (.push 7) (st 0 0 [] [])) =
    some (0xF3, 0xF3) := by decide
theorem test_push_at_zero : look (fun t => (t.x .r7, t.fault)) (exec (.push 0) (st 0 0 [(.r7, 0)] [])) =
    some (0x00, some (.boundsFault .stackPush)) ∧
    look (fun t => (t.x .r7, t.load 0xFF)) (exec (.push 0) (wrapping (st 0 0 [(.r0, 0x2A), (.r7, 0)] []))) =
      some (0xFF, 0x2A) := by decide
theorem test_pop_sp : look (fun t => (t.x .r7, t.fault)) (exec (.pop 7) (st 0 0 [(.r7, 0xF3)] [(0xF3, 0x20)])) =
    some (0x21, none) := by decide
theorem test_pop_at_top : look (fun t => (t.x .r1, t.x .r7, t.fault))
    (exec (.pop 1) (st 0 0 [(.r7, 0xFF)] [(0xFF, 0x5A)])) =
      some (0x5A, 0xFF, some (.boundsFault .stackPop)) := by decide

/-! ## Control transfer (V11): the PC given is the instruction's own address -/

theorem test_call : look (fun t => (t.load 0xF3, t.x .r7, t.pc)) (exec (.call 1) (st 0x06 0 [(.r1, 0x0C)] [])) =
    some (0x08, 0xF3, 0x0C) := by decide
theorem test_call_sp : look (fun t => (t.load 0xF3, t.pc)) (exec (.call 7) (st 0x06 0 [] [])) =
    some (0x08, 0xF3) := by decide
theorem test_ret : look (fun t => (t.pc, t.x .r7)) (exec .ret (st 0x0F 0 [(.r7, 0xF3)] [(0xF3, 0x08)])) =
    some (0x08, 0xF4) := by decide
theorem test_ret_at_top : look (fun t => (t.pc, t.fault)) (exec .ret (st 0x0F 0 [(.r7, 0xFF)] [])) =
    some (0x0F, some (.boundsFault .stackPop)) := by decide
theorem test_jmp : look (fun t => t.pc) (exec (.jmp 2) (st 0x10 0 [(.r2, 0x0F)] [])) = some 0x0F := by decide
theorem test_jeq_reads_bit_zero : look (fun t => t.pc) (exec (.jeq 2) (st 0x10 5 [(.r2, 0x20)] [])) = some 0x20 ∧
    look (fun t => t.pc) (exec (.jeq 2) (st 0x10 2 [(.r2, 0x20)] [])) = some 0x12 := by decide
theorem test_jne : look (fun t => t.pc) (exec (.jne 2) (st 0x10 4 [(.r2, 0x09)] [])) = some 0x09 ∧
    look (fun t => t.pc) (exec (.jne 2) (st 0x10 1 [(.r2, 0x09)] [])) = some 0x12 := by decide

/-! ## Halt, output, IRET (V12, V14) -/

theorem test_hlt_at_top : look (fun t => (t.run, t.fault, t.pc)) (step (st 0xFF 0 [] [(0xFF, 0x01)])) =
    some (false, none, 0x00) := by decide
theorem test_prn : look (fun t => t.out) (exec (.prn 0) (st 0x05 0 [(.r0, 0xFF)] [])) = some [.prn 0xFF] := by decide
theorem test_pra : look (fun t => t.out) (exec (.pra 0) (st 0x05 0 [(.r0, 0x41)] [])) = some [.pra 0x41] := by decide
theorem test_iret_restores : look (fun t => (t.regs, t.fl, t.pc, t.ie)) (exec .iret (st 0x20 0 [(.r7, 0xEB)]
      [(0xF3, 0x1B), (0xF2, 1), (0xF1, 0x80), (0xEE, 0x15), (0xEC, 1)])) =
    some (⟨0x80, 0, 0, 0x15, 0, 1, 0, 0xF4⟩, 1, 0x1B, true) := by decide
theorem test_iret_at_f8 : look (fun t => (t.regs, t.fl, t.pc, t.fault))
    (exec .iret (st 0x20 4 [(.r7, 0xF8)] [(0xF8, 6), (0xF9, 5), (0xFE, 9), (0xFF, 7)])) =
      some (⟨9, 0, 0, 0, 0, 5, 6, 0xFF⟩, 4, 0x20, some (.boundsFault .stackPop)) := by decide

/-! ## Register operand bytes (V2) -/

theorem test_bad_first_operand_reported : look (fun t => (t.fault, t.pc))
    (step (st 0x10 0 [] [(0x10, 0xA0), (0x11, 0x09), (0x12, 0x0A)])) =
      some (some (.regIndexFault 0x09), 0x13) := by decide
theorem test_bad_jump_operand : look (fun t => (t.fault, t.pc)) (step (st 0x10 0 [] [(0x10, 0x54), (0x11, 0x10)])) =
    some (some (.regIndexFault 0x10), 0x10) := by decide

/-! ## The cycle and the top of memory (V1, V13) -/

theorem test_pc_overflow : look (fun t => (t.x .r0, t.pc, t.fault))
    (step (st 0xFD 0 [] [(0xFD, 0x82), (0xFF, 0x05)])) =
      some (0x05, 0x00, some (.boundsFault .pcOverflow)) := by decide
theorem test_operand_fetch : look (fun t => (t.pc, t.fault)) (step (st 0xFE 0 [] [(0xFE, 0x82)])) =
      some (0xFE, some (.boundsFault .operandFetch)) ∧
    look (fun t => (t.x .r0, t.pc)) (step (wrapping (st 0xFE 0 [] [(0xFE, 0x82), (0x00, 0x07)]))) =
      some (0x07, 0x01) := by decide
theorem test_unrecognised_advances : look (fun t => (t.pc, t.diag)) (step (st 0x10 0 [] [(0x10, 0xC0)])) =
    some (0x14, [.unknownOpcode 0xC0 0x10]) := by decide
theorem test_unrecognised_stays : look (fun t => (t.pc, t.diag, t.run)) (step (st 0x10 0 [] [(0x10, 0x57)])) =
    some (0x10, [.unknownOpcode 0x57 0x10], true) := by decide

/-! ## The six instructions that write PC, under a map whose SETS_PC is 0 for them (R65, R84, R85, R86, R89, R91) -/

theorem test_call_bit_clear : look (fun t => (t.load 0xF3, t.pc))
    (step (bitClear (st 0x06 0 [(.r1, 0x0C)] [(0x06, 0x40), (0x07, 0x01)]))) = some (0x08, 0x0C) := by decide
theorem test_call_bit_clear_stack_fault : look (fun t => (t.pc, t.fault))
    (step (bitClear (st 0x06 0 [(.r7, 0)] [(0x06, 0x40), (0x07, 0x01)]))) =
      some (0x06, some (.boundsFault .stackPush)) := by decide
theorem test_bad_jump_operand_bit_clear : look (fun t => (t.pc, t.fault))
    (step (bitClear (st 0x10 0 [] [(0x10, 0x42), (0x11, 0x10)]))) =
      some (0x12, some (.regIndexFault 0x10)) := by decide
theorem test_jmp_bit_clear_at_top : look (fun t => (t.pc, t.fault))
    (step (bitClear (st 0xFE 0 [(.r2, 0x20)] [(0xFE, 0x42), (0xFF, 0x02)]))) =
      some (0x00, some (.boundsFault .pcOverflow)) := by decide
theorem test_jmp_bit_clear_at_top_wraps : look (fun t => (t.pc, t.run))
    (step (wrapping (bitClear (st 0xFE 0 [(.r2, 0x20)] [(0xFE, 0x42), (0xFF, 0x02)])))) =
      some (0x20, true) := by decide
theorem test_jeq_bit_clear_not_taken : look (fun t => t.pc)
    (step (bitClear (st 0x10 4 [(.r2, 0x20)] [(0x10, 0x43), (0x11, 0x02)]))) = some 0x12 := by decide
theorem test_ret_bit_clear : look (fun t => (t.pc, t.run))
    (step (bitClear (st 0x0F 0 [(.r7, 0xF3)] [(0x0F, 0x02), (0xF3, 0x08)]))) = some (0x08, true) := by decide
theorem test_ret_bit_clear_at_top : look (fun t => (t.pc, t.x .r7, t.fault))
    (step (bitClear (st 0xFF 0 [(.r7, 0xF3)] [(0xFF, 0x02), (0xF3, 0x08)]))) =
      some (0x00, 0xF4, some (.boundsFault .pcOverflow)) := by decide

/-! ## The interrupt controller (V14, S7) -/

theorem test_entry : ended (fun t => (t.regs, t.pc, t.ie)) (interruptCheck (st 0x1B 1
      [(.r0, 0x80), (.r3, 0x15), (.r5, 1), (.r6, 1)] [(0xF8, 0x20)])) =
    (false, ⟨0x80, 0, 0, 0x15, 0, 1, 0, 0xEB⟩, 0x20, false) := by decide
theorem test_entry_frame : ended (fun t => [0xF3, 0xF2, 0xF1, 0xF0, 0xEF, 0xEE, 0xED, 0xEC, 0xEB].map t.load)
      (interruptCheck (st 0x1B 1 [(.r0, 0x80), (.r3, 0x15), (.r5, 1), (.r6, 1)] [(0xF8, 0x20)])) =
    (false, [0x1B, 0x01, 0x80, 0x00, 0x00, 0x15, 0x00, 0x01, 0x00]) := by decide
theorem test_entry_fault_at_five : ended (fun t => (t.x .r6, t.x .r7, t.pc, [4, 3, 2, 1, 0].map t.load))
      (interruptCheck (st 0x1B 1 [(.r0, 0x80), (.r1, 7), (.r2, 8), (.r5, 1), (.r6, 1), (.r7, 5)] [])) =
    (true, 0x00, 0x00, 0x1B, [0x1B, 0x01, 0x80, 0x07, 0x08]) := by decide
theorem test_masked_source_waits : ended (fun t => t.x .r6) (interruptCheck (st 0 0 [(.r5, 1), (.r6, 0xFE)] [])) =
    (false, 0xFE) := by decide
theorem test_tick_sets_bit_zero :
    (timerCheck { st 0 0 [(.r6, 6)] [] with ticks := [true], ie := false }).x .r6 = 7 := by decide

/-! ## Witnesses: states and operands that meet the hypotheses of each statement, at the boundaries -/

/-- A one-instruction memory at 0x10. -/
def runs (bytes : List Byte) (regs : List (Reg × Byte)) : State := placeInstruction (st 0x10 0 regs []) bytes

/-- IM and IS both 1, so that the next cycle takes an interrupt; SP given. -/
def pends (sp : Byte) : State := st 0x10 0 [(.r5, 1), (.r6, 1), (.r7, sp)] []

/-- A cycle from `s` that takes no interrupt and no tick fetches in `s`. -/
theorem fetches_in_place (s : State) (hr : s.run = true) (hi : s.pending = 0) (ho : s.ovf = false)
    (ht : s.ticks = []) : FetchesIn s s := by
  obtain ⟨regs, pc, fl, ie, run, fault, mem, ovf, out, diag, ticks, config⟩ := s
  subst hr ho ht
  have hi' : RegFile.read regs .r5 &&& RegFile.read regs .r6 = 0 := hi
  exact ⟨rfl, _, by simp [interruptCheck, State.pending, State.x, State.setOvf, hi']; rfl, rfl⟩

theorem witness_LaunchLoadsImageAtZero : (List.replicate 256 (0x05 : Byte)).length ≤ 256 ∧
    256 < (List.replicate 257 (0x05 : Byte)).length := by rw [List.length_replicate, List.length_replicate]; decide
theorem witness_legal_map : OpcodeMap.default.legal = true ∧
    ({ OpcodeMap.default with hlt := 0b00001111 }).legal = true ∧ bitClearMap.legal = true ∧
    ({ OpcodeMap.default with add := 0b10110000 }).legal = false := by decide
theorem witness_StreamIsCutByFirstBytes : bitClearMap.legal = true ∧
    decode bitClearMap [0x40, 0x01, 0x82] = .ok (.call 1, [0x82]) ∧
    cutStream 3 [0x82, 0x00, 0x08, 0x47, 0x00, 0x01] = [[0x82, 0x00, 0x08], [0x47, 0x00], [0x01]] :=
  ⟨by decide, rfl, by decide⟩
theorem witness_EncodeOfDecode : OpcodeMap.default.legal = true ∧
    decode OpcodeMap.default [0x47, 0x09, 0x01] = .ok (.prn 9, [0x01]) := ⟨by decide, rfl⟩
theorem witness_OperandByteNamesRegister : (8 ≤ (0x08 : Byte).toNat ∧ 8 ≤ (0xFF : Byte).toNat) ∧
    regOf 0x07 = some .r7 ∧ regOf 0x00 = some .r0 := by decide
theorem witness_RegistersAreSeparateCells : Reg.r6 ≠ Reg.r7 ∧ (st 5 1 [] [(0, 1)]).regs = State.reset.regs ∧ regNumbered 7 = regNumbered 7 ∧
    regOf 0x07 = some .r7 := by decide
theorem witness_MemoryWriteSetsOneCell : (0xFF : Byte) ≠ 0x00 := by decide
theorem witness_MemoryFormIsCanonical : Memory.wf [(0, 1), (255, 2)] = true ∧
    Memory.wf (Memory.write (Memory.write [] 255 2) 0 1) = true ∧
    ∀ a : Byte, Memory.read [(0, 1), (255, 2)] a = (Memory.write (Memory.write [] 255 2) 0 1).read a :=
  ⟨by decide, by decide, fun _ => rfl⟩
theorem witness_DivModOrDivideByZero : (st 0 0 [(.r1, 0x01)] []).x .r1 ≠ 0 ∧ (st 0 0 [] []).x .r1 = 0 ∧
    8 ≤ (0x08 : Byte).toNat ∧ 8 ≤ (0xFF : Byte).toNat := by decide
/-- A bad operand_a is reported also where the divisor register holds 0 (R104). -/
theorem test_div_bad_operand_before_zero : look (fun t => t.fault) (exec (.div 8 1) (st 0 0 [] [])) =
    some (some (.regIndexFault 8)) := by decide
theorem witness_CmpSetsExactlyOneFlag : (st 0 0 [(.r0, 7), (.r1, 7)] []).x .r0 = (st 0 0 [(.r1, 7)] []).x .r1 ∧
    ((st 0 0 [(.r1, 0x7F)] []).x .r1).toNat < ((st 0 0 [(.r0, 0x80)] []).x .r0).toNat ∧
    ((st 0 0 [(.r0, 0x00)] []).x .r0).toNat < ((st 0 0 [(.r1, 0xFF)] []).x .r1).toNat := by decide
theorem witness_ShiftsByWholeRegister : 8 ≤ ((st 0 0 [(.r1, 8)] []).x .r1).toNat ∧
    8 ≤ ((st 0 0 [(.r1, 255)] []).x .r1).toNat := by decide
/-- For PUSH and for CALL, whose address here is 0. -/
theorem witness_PushStoresBelowStackPointer :
    (st 0 0 [(.r7, 0x01)] []).x .r7 ≠ 0x00 ∧ (wrapping (st 0 0 [(.r7, 0x00)] [])).wraps ∧
    (st 0 0 [(.r7, 0x00)] []).x .r7 = 0x00 ∧ (st 0 0 [(.r7, 0x00)] []).checked := by decide
/-- Clauses for POP R1, then for POP R7, whose popped value is the SP that is incremented. -/
theorem witness_PopLoadsThenIncrements :
    (st 0 0 [(.r7, 0xFE)] []).x .r7 ≠ 0xFF ∧ (wrapping (st 0 0 [(.r7, 0xFF)] [])).wraps ∧
    (st 0 0 [(.r7, 0xFF)] []).x .r7 = 0xFF ∧ (st 0 0 [(.r7, 0xFF)] []).checked ∧
    (st 0 0 [(.r7, 0xF3)] [(0xF3, 0xFF)]).load 0xF3 = 0xFF ∧ (st 0 0 [(.r7, 0xFF)] []).load 0xFF ≠ 0xFF := by
  decide
theorem witness_PushThenPopRestores : (st 0 0 [(.r7, 0x01)] []).x .r7 ≠ 0x00 := by decide
theorem witness_CallPushesReturnAddress :
    (((st 0xFD 0 [(.r7, 1)] []).ownAddress .call).toNat ≤ 0xFD ∧ (st 0xFD 0 [(.r7, 1)] []).x .r7 ≠ 0x00) ∧
    (wrapping (st 0xFF 0 [(.r7, 0)] [])).wraps ∧
    (0xFD < ((st 0xFE 0 [] []).ownAddress .call).toNat ∧ (st 0xFE 0 [] []).checked) ∧
    (((st 0xFD 0 [(.r7, 0)] []).ownAddress .call).toNat ≤ 0xFD ∧ (st 0xFD 0 [(.r7, 0)] []).x .r7 = 0x00) := by decide
/-- With bit 4 clear, PC 0xFF is that of a CALL at 0xFD and PC 0x00 that of one at 0xFE. -/
theorem witness_CallPushesReturnAddress_bit_clear :
    (bitClear (st 0xFF 0 [] [])).ownAddress .call = 0xFD ∧
    0xFD < ((bitClear (st 0x00 0 [] [])).ownAddress .call).toNat := by decide
theorem witness_RetPopsProgramCounter :
    (st 0 0 [(.r7, 0xFE)] []).x .r7 ≠ 0xFF ∧ (wrapping (st 0 0 [(.r7, 0xFF)] [])).wraps ∧
    (st 0 0 [(.r7, 0xFF)] []).x .r7 = 0xFF ∧ (st 0 0 [(.r7, 0xFF)] []).checked := by decide
/-- After CALL R1 at 0xFD with SP 1, the state itself has SP and the pushed cell as CALL left them. -/
theorem witness_CallThenRetReturns : look (fun t => (t.x .r7, t.load 0x00, t.config.policy))
      (exec (.call 1) (st 0xFD 0 [(.r7, 1)] [])) =
    some ((st 0 0 [(.r7, 0)] [(0, 0xFF)]).x .r7, (st 0 0 [(.r7, 0)] [(0, 0xFF)]).load 0,
      (st 0 0 [(.r7, 0)] [(0, 0xFF)]).config.policy) := by decide
theorem witness_JumpsReadOnlyEqualFlag : (st 0 1 [] []).fl.getLsbD 0 = true ∧ (st 0 5 [] []).fl.getLsbD 0 = true ∧
    (st 0 0 [] []).fl.getLsbD 0 = false ∧ (st 0 6 [] []).fl.getLsbD 0 = false := by decide
theorem witness_BadRegisterOperandStops :
    (Instr.add 9 10).regOperands.find? (fun b => decide (7 < b.toNat)) = some 9 ∧
    (Instr.add 7 8).regOperands.find? (fun b => decide (7 < b.toNat)) = some 8 ∧
    (Instr.ldi 255 0).regOperands.find? (fun b => decide (7 < b.toNat)) = some 255 := by decide
theorem witness_StoppedMachineStays : (State.reset.stop).run = false := by decide
theorem witness_InterruptTakenExactlyWhenPending :
    ((pends 0xF4).ie = true ∧ (pends 0xF4).x .r5 &&& (pends 0xF4).x .r6 ≠ 0) ∧
    ((pends 0xF4).setIe false).ie = false ∧ State.reset.x .r5 &&& State.reset.x .r6 = 0 := by decide
theorem witness_InterruptEntrySavesNineBytes : 9 ≤ ((pends 9).x .r7).toNat ∧ (wrapping (pends 8)).wraps := by decide
theorem witness_InterruptEntryStackFault : (((pends 8).x .r7).toNat < 9 ∧ (pends 8).checked) ∧
    (((pends 0).x .r7).toNat < 9 ∧ (pends 0).checked) ∧ 7 < ((pends 8).x .r7).toNat := by decide
theorem witness_IretPopsNineBytes : ((st 0 0 [(.r7, 246)] []).x .r7).toNat ≤ 246 ∧
    (wrapping (st 0 0 [(.r7, 255)] [])).wraps := by decide
theorem witness_IretStackFault : (246 < ((st 0 0 [(.r7, 247)] []).x .r7).toNat ∧ (st 0 0 [(.r7, 247)] []).checked) ∧
    (246 < ((st 0 0 [(.r7, 248)] []).x .r7).toNat ∧ (st 0 0 [(.r7, 248)] []).checked) ∧
    (246 < ((st 0 0 [(.r7, 255)] []).x .r7).toNat ∧ (st 0 0 [(.r7, 255)] []).checked) := by decide
/-- The state that entry leaves meets the premises on the later state itself. -/
theorem witness_InterruptCycleRestoresProgram : 9 ≤ ((pends 9).x .r7).toNat ∧
    ∃ t, interruptEntry (pends 9) = .ok t ∧ ∃ u : State, u.x .r7 = t.x .r7 ∧ u.config = t.config ∧
      ∀ k, k < 9 → u.load (t.x .r7 + BitVec.ofNat 8 k) = t.load (t.x .r7 + BitVec.ofNat 8 k) :=
  ⟨by decide, _, rfl, _, rfl, rfl, fun _ _ => rfl⟩
/-- LDI R1,2 and JMP R1 at 0x10, CALL R1 under the map whose bit 4 is clear for it, and LDI at 0xFD, the last address from which it fits. -/
theorem witness_StepRunsDecodedInstruction :
    (FetchesIn (runs [0x82, 1, 2] []) (runs [0x82, 1, 2] []) ∧
      decode OpcodeMap.default (runs [0x82, 1, 2] []).bytesAtPc = .ok (.ldi 1 2, [])) ∧
    (FetchesIn (runs [0x54, 1] []) (runs [0x54, 1] []) ∧
      decode OpcodeMap.default (runs [0x54, 1] []).bytesAtPc = .ok (.jmp 1, [0])) ∧
    (FetchesIn (bitClear (runs [0x40, 1] [])) (bitClear (runs [0x40, 1] [])) ∧ bitClearMap.legal = true ∧
      decode bitClearMap (bitClear (runs [0x40, 1] [])).bytesAtPc = .ok (.call 1, [0])) ∧
    (st 0xFD 0 [] []).fits 3 ∧ ¬ (st 0xFE 0 [] []).fits 3 ∧ (wrapping (st 0xFE 0 [] [])).fits 3 :=
  ⟨⟨fetches_in_place _ rfl rfl rfl rfl, rfl⟩, ⟨fetches_in_place _ rfl rfl rfl rfl, rfl⟩,
    ⟨fetches_in_place _ rfl rfl rfl rfl, by decide, rfl⟩, by decide, by decide, by decide⟩
theorem witness_EndOfCycleChecksOverflow :
    ((State.reset.setOvf true).run = true ∧ (State.reset.setOvf true).ovf = true ∧ (State.reset.setOvf true).checked) ∧
    (State.reset.stop).run = false ∧ State.reset.ovf = false ∧ (wrapping State.reset).wraps := by decide
/-- PRN R0 at 0xFE, and JMP R2 there under the map whose bit 4 is clear for it. -/
theorem witness_OverflowingAdvanceStops :
    (FetchesIn (st 0xFE 0 [] [(0xFE, 0x47)]) (st 0xFE 0 [] [(0xFE, 0x47)]) ∧ (st 0xFE 0 [] []).checked ∧
      decode OpcodeMap.default (st 0xFE 0 [] [(0xFE, 0x47)]).bytesAtPc = .ok (.prn 0, [0]) ∧
      (st 0xFE 0 [] []).fits 2 ∧ setsPcBit 0x47 = false ∧ 255 < 0xFE + 2) ∧
    (FetchesIn (bitClear (st 0xFE 0 [] [(0xFE, 0x42), (0xFF, 2)])) (bitClear (st 0xFE 0 [] [(0xFE, 0x42), (0xFF, 2)])) ∧
      bitClearMap.legal = true ∧ setsPcBit 0x42 = false ∧
      decode bitClearMap (bitClear (st 0xFE 0 [] [(0xFE, 0x42), (0xFF, 2)])).bytesAtPc = .ok (.jmp 2, [0])) :=
  ⟨⟨fetches_in_place _ rfl rfl rfl rfl, rfl, rfl, by decide, by decide, by decide⟩,
    fetches_in_place _ rfl rfl rfl rfl, by decide, by decide, rfl⟩
theorem witness_AdvanceLatchesCarry : 4 ≤ 4 ∧ 255 < (st 0xFC 0 [] []).pc.toNat + 4 ∧
    ¬ 255 < (st 0xFB 0 [] []).pc.toNat + 4 := by decide
theorem witness_OperandBeyondMemoryStops : FetchesIn (st 0xFE 0 [] [(0xFE, 0x82)]) (st 0xFE 0 [] [(0xFE, 0x82)]) ∧
    decodeOp OpcodeMap.default ((st 0xFE 0 [] [(0xFE, 0x82)]).load 0xFE) = some .ldi ∧ 256 < 0xFE + (Op.ldi.cnt + 1) ∧
    (st 0xFE 0 [] [(0xFE, 0x82)]).checked := ⟨fetches_in_place _ rfl rfl rfl rfl, by decide, by decide, rfl⟩
/-- Byte 0x00 at 0x10 and at 0xFF, where the advance leaves memory, and 0x57, whose bit 4 is set. -/
theorem witness_UnrecognisedOpcodeIsReported :
    (FetchesIn (st 0xFF 0 [] []) (st 0xFF 0 [] []) ∧
      decodeOp OpcodeMap.default ((st 0xFF 0 [] []).load 0xFF) = none ∧ 255 < 0xFF + 1 ∧ (st 0xFF 0 [] []).checked) ∧
    (FetchesIn (runs [0x57] []) (runs [0x57] []) ∧
      decodeOp OpcodeMap.default ((runs [0x57] []).load 0x10) = none ∧ 0x57 / 16 % 2 = 1) ∧
    (FetchesIn (runs [0x00] []) (runs [0x00] []) ∧ 0x10 + 1 ≤ 255) :=
  ⟨⟨fetches_in_place _ rfl rfl rfl rfl, by decide, by decide, rfl⟩,
    ⟨fetches_in_place _ rfl rfl rfl rfl, by decide, by decide⟩, fetches_in_place _ rfl rfl rfl rfl, by decide⟩
theorem witness_EntryFaultEndsCycle : (pends 8).run = true ∧ ∃ t, interruptCheck ((pends 8).setOvf false) = .error t :=
  ⟨rfl, _, rfl⟩
theorem witness_OnlyCmpAndIretChangeFlags : look (fun t => decide (t.fl ≠ (runs [0xA7, 0, 1] []).fl))
    (step (runs [0xA7, 0, 1] [])) = some true := by decide
theorem witness_OnlyIretEnablesInterrupts :
    look (fun t => t.ie) (step ((runs [0x13] [(.r7, 0x80)]).setIe false)) = some true ∧
    (pends 0xF4).ie = true ∧ look (fun t => t.ie) (step (pends 0xF4)) = some false := by decide
theorem witness_OnlyStoresChangeMemory :
    look (fun t => t.load 0x80) (step (runs [0x84, 0, 1] [(.r0, 0x80), (.r1, 5)])) = some 5 ∧
    (runs [0x84, 0, 1] [(.r0, 0x80), (.r1, 5)]).load 0x80 ≠ 5 := by decide
theorem witness_InstructionsChangeNamedRegisters : ¬ mayWrite (.add 0 1) .r1 ∧ ¬ mayWrite (.push 0) .r0 ∧
    ¬ mayWrite .hlt .r7 :=
  ⟨fun h => absurd (show (0 : Byte) = Reg.r1.byte from h) (by decide),
    fun h => absurd (show Reg.r0 = Reg.r7 from h) (by decide), fun h => h⟩
theorem witness_AluTouchesNeitherMemoryNorPc : OpcodeMap.default.legal = true ∧
    (OpcodeMap.default.byte .cmp).toNat / 32 % 2 = 1 ∧ (Instr.inc 0).op ≠ .cmp ∧ (Instr.cmp 7 0).wf = true ∧
    ∀ r, (st 5 1 [] [(0, 1)]).x r = State.reset.x r := ⟨by decide, by decide, by decide, by decide, fun _ => rfl⟩
theorem witness_PortsOnlyGrowByOneEvent : look (fun t => (t.out, t.diag)) (step (runs [0x48, 0] [(.r0, 65)])) =
      some ([.pra 65], []) ∧ (runs [0x48, 0] [(.r0, 65)]).config.opcodes.legal = true ∧
    look (fun t => t.diag) (step (runs [0x57] [])) = some [.unknownOpcode 0x57 0x10] := by decide
theorem witness_StopIsHaltOrFault : (runs [0x01] []).run = true ∧ (runs [0x01] []).fault = none ∧
    look (fun t => (t.run, t.fault)) (step (runs [0x01] [])) = some (false, none) ∧
    look (fun t => (t.run, t.fault)) (step (runs [0x65, 0] [])) = some (true, none) := by decide
theorem witness_InvKeptByEveryStep : State.reset.Inv ∧ look (fun t => t.mem) (step State.reset) = some [] :=
  ⟨⟨rfl, fun _ => rfl, fun _ h => (by cases h), fun _ h => (by cases h), rfl, by decide⟩, by decide⟩

end Sys2Proof.Tests
end

section
/-! PROOFS. The length of an instruction from its first byte, and the cutting of a stream by it
(spec/30_encoding.md R61, R70). -/

namespace Sys2Proof.Machine

/-- The bit field CNT as a quotient of the byte's value (R60). -/
theorem cnt_eq_div (ir : Byte) : cnt ir = ir.toNat / 64 := by
  have hlt := ir.isLt
  rw [cnt, BitVec.extractLsb'_toNat, Nat.shiftRight_eq_div_pow]
  omega

/-- Under a legal map CNT of an encoding's first byte counts the bytes after it (R61, R64). -/
theorem encode_eq_cons {m : OpcodeMap} (h : m.legal = true) (i : Instr) :
    ∃ operands, encode m i = m.byte i.op :: operands ∧ operands.length = cnt (m.byte i.op) := by
  obtain ⟨a, b, hi⟩ := i.eq_instr
  have henc : encode m i = m.byte i.op :: [a, b].take i.op.cnt :=
    (congrArg (encode m) hi).trans (encode_instr m i.op a b)
  refine ⟨_, henc, ?_⟩
  rw [(OpcodeMap.legal_fields h i.op).1, List.length_take]
  exact Nat.min_eq_left i.op.cnt_le_two

/-- Operand bytes taken leave the bytes after the first `n`. -/
theorem takeOperands_rest {n : Nat} {a b : Byte} {bytes rest : List Byte}
    (h : takeOperands n bytes = some (a, b, rest)) : bytes.drop n = rest := by
  obtain ⟨hn, rfl⟩ := takeOperands_some h
  exact List.drop_left' (by simpa using hn)

/-- A decoding reads the instruction's own opcode byte and leaves the bytes after CNT operand bytes (R61, R64). -/
theorem decode_ok_rest {m : OpcodeMap} {bytes rest : List Byte} {i : Instr} (h : decode m bytes = .ok (i, rest)) :
    ∃ tail, bytes = m.byte i.op :: tail ∧ tail.drop (cnt (m.byte i.op)) = rest := by
  obtain ⟨ir, tail, op, a, b, rfl, hop, htake, rfl⟩ := decode_ok h
  obtain rfl := decodeOp_some hop
  rw [Op.instr_op]
  exact ⟨tail, rfl, takeOperands_rest htake⟩

/-- The first piece cut from an encoding and more bytes is that encoding (R70). -/
theorem cutStream_encode_append {m : OpcodeMap} (h : m.legal = true) (n : Nat) (i : Instr) (rest : List Byte) :
    cutStream (n + 1) (encode m i ++ rest) = encode m i :: cutStream n rest := by
  obtain ⟨operands, henc, hlen⟩ := encode_eq_cons h i
  rw [henc, List.cons_append, cutStream, instrLen, List.take_succ_cons, List.take_left' hlen, List.drop_left' hlen]

/-- Encodings set one after another are cut apart again, without the map (R70). -/
theorem cutStream_flatMap_encode {m : OpcodeMap} (h : m.legal = true) (is : List Instr) :
    cutStream is.length (is.flatMap (encode m)) = is.map (encode m) := by
  induction is with
  | nil => rfl
  | cons i is ih =>
    rw [List.flatMap_cons, List.length_cons, cutStream_encode_append h, ih, List.map_cons]

/-- Settles O52: the decoder takes CNT operand bytes, which is the encoding's length less one; the stream part is by
induction on the instructions. -/
theorem streamIsCutByFirstBytes : Obligations.StreamIsCutByFirstBytes := by
  intro m hm
  refine ⟨fun i bytes rest hdec => ?_, cutStream_flatMap_encode hm⟩
  obtain ⟨tail, hbytes, hrest⟩ := decode_ok_rest hdec
  have hcnt : (m.byte i.op).toNat / 64 = i.op.cnt := by
    rw [← cnt_eq_div, (OpcodeMap.legal_fields hm i.op).1]
  have hle := i.op.cnt_le_two
  refine ⟨_, tail, hbytes, ?_, ?_, ?_, ?_⟩
  · rw [hbytes, List.drop_succ_cons, ← cnt_eq_div, hrest]
  · rw [encode_length, hcnt]
  · rw [encode_length]; omega
  · rw [encode_length]; omega

end Sys2Proof.Machine
end

section
/-! PROOFS. Bit 5 routes to the ALU, whose instructions read registers only and leave memory and PC alone
(spec/30_encoding.md R63, spec/40_cycle.md R88). -/

namespace Sys2Proof.Machine

/-- The bit field ALU as a digit of the byte's value (R60, R63). -/
theorem aluBit_iff_div (ir : Byte) : aluBit ir = true ↔ ir.toNat / 32 % 2 = 1 := by
  rw [aluBit, ← BitVec.testBit_toNat, Nat.testBit_eq_decide_div_mod_eq, decide_eq_true_iff]

/-- The 14 mnemonics of the ALU column of R66. -/
theorem isAlu_iff_mem (op : Op) : op.isAlu = true ↔
    op ∈ [Op.add, .sub, .mul, .div, .mod, .inc, .dec, .cmp, .and, .or, .xor, .not, .shl, .shr] := by
  cases op <;> decide

/-- The two states have the same content in every register. -/
def SameRegs (s u : State) : Prop := ∀ r, u.x r = s.x r

namespace SameRegs

/-- A raise writes no register. -/
theorem raise {s u : State} (h : SameRegs s u) (f : Fault) : SameRegs (s.raise f) (u.raise f) := h

theorem setX {s u : State} (h : SameRegs s u) (r : Reg) (v : Byte) : SameRegs (s.setX r v) (u.setX r v) := by
  intro q
  rw [State.setX_x, State.setX_x, h q]

/-- A one-register instruction, given what its effect does from both states. -/
theorem ofOneReg {s u : State} (h : SameRegs s u) {a : Byte} {e e' : Reg → Raising State}
    (he : ∀ r, SameRegs (finalState (e r)) (finalState (e' r))) :
    SameRegs (finalState (oneReg a s e)) (finalState (oneReg a u e')) := by
  obtain ⟨r, rfl, -⟩ | ⟨hbad, -⟩ := oneReg_cases a s e
  · rw [oneReg_byte, oneReg_byte]; exact he r
  · rw [oneReg_bad s e hbad, oneReg_bad u e' hbad]; exact h.raise _

/-- A two-register instruction, given what its effect does from both states. -/
theorem ofTwoRegs {s u : State} (h : SameRegs s u) {a b : Byte} {e e' : Reg → Reg → Raising State}
    (he : ∀ r q, SameRegs (finalState (e r q)) (finalState (e' r q))) :
    SameRegs (finalState (twoRegs a b s e)) (finalState (twoRegs a b u e')) := by
  obtain ⟨r, rfl, -⟩ | ⟨hbad, -⟩ := s.reg_cases a
  · obtain ⟨q, rfl, -⟩ | ⟨hbad, -⟩ := s.reg_cases b
    · rw [twoRegs_byte, twoRegs_byte]; exact he r q
    · rw [twoRegs_bad_second r s e hbad, twoRegs_bad_second r u e' hbad]; exact h.raise _
  · rw [twoRegs_bad_first b s e hbad, twoRegs_bad_first b u e' hbad]; exact h.raise _

theorem aluOne {s u : State} (h : SameRegs s u) {f : Byte → Byte} {a : Byte} :
    SameRegs (finalState (aluOne f a s)) (finalState (aluOne f a u)) :=
  h.ofOneReg fun r => by rw [h r]; exact h.setX r _

theorem aluPair {s u : State} (h : SameRegs s u) {f : Byte → Byte → Byte} {a b : Byte} :
    SameRegs (finalState (aluPair f a b s)) (finalState (aluPair f a b u)) :=
  h.ofTwoRegs fun r q => by rw [h r, h q]; exact h.setX r _

/-- The divisor is the same register's, so both states divide or both raise. -/
theorem aluDivide {s u : State} (h : SameRegs s u) {f : Byte → Byte → Byte} {a b : Byte} :
    SameRegs (finalState (aluDivide f a b s)) (finalState (aluDivide f a b u)) :=
  h.ofTwoRegs fun r q => by
    rw [h r, h q]
    by_cases hzero : s.x q = 0
    · rw [if_pos hzero, if_pos hzero]; exact h.raise _
    · rw [if_neg hzero, if_neg hzero]; exact h.setX r _

/-- The registers an ALU instruction leaves are a function of the registers (R88). -/
theorem exec_alu {i : Instr} (hAlu : i.op.isAlu = true) {s u : State} (h : SameRegs s u) :
    ∃ t v, exec i s = .next t ∧ exec i u = .next v ∧ SameRegs t v := by
  cases i
  case hlt | ldi | prn | pra | ld | st | push | pop | call | ret | jmp | jeq | jne | iret => cases hAlu
  case cmp => exact ⟨_, _, settle_eq _, settle_eq _, h.ofTwoRegs fun _ _ => h⟩
  case div | mod => exact ⟨_, _, settle_eq _, settle_eq _, h.aluDivide⟩
  case inc | dec | not => exact ⟨_, _, settle_eq _, settle_eq _, h.aluOne⟩
  case add | sub | mul | and | or | xor | shl | shr => exact ⟨_, _, settle_eq _, settle_eq _, h.aluPair⟩

end SameRegs

theorem eq_byte_of_namesRegister {b : Byte} (h : namesRegister b = true) : ∃ r : Reg, b = r.byte := by
  have hle := namesRegister_iff.1 h
  cases hr : regOf b with
  | none => have hgt := regOf_eq_none.1 hr; omega
  | some r => exact ⟨r, regOf_eq_some.1 hr⟩

theorem exec_cmp_byte (ra rb : Reg) (s : State) :
    exec (.cmp ra.byte rb.byte) s = .next (s.setFl (compareFlags (s.x ra) (s.x rb))) :=
  (settle_eq _).trans (by rw [twoRegs_byte, finalState_ok])

/-- The FL that CMP of two registers leaves is a function of the registers (R88, R107). -/
theorem exec_cmp_fl_congr {i : Instr} (hop : i.op = .cmp) (hwf : i.wf = true) {s u t v : State}
    (h : SameRegs s u) (ht : exec i s = .next t) (hv : exec i u = .next v) : v.fl = t.fl := by
  obtain ⟨a, b, hi⟩ := i.eq_instr
  obtain rfl : i = .cmp a b := hi.trans (congrArg (Op.instr · a b) hop)
  have hnames : namesRegister a = true ∧ namesRegister b = true := by
    simpa [Instr.wf, Instr.regOperands] using hwf
  obtain ⟨ra, rfl⟩ := eq_byte_of_namesRegister hnames.1
  obtain ⟨rb, rfl⟩ := eq_byte_of_namesRegister hnames.2
  rw [exec_cmp_byte] at ht hv
  cases ht
  cases hv
  rw [State.setFl_fl, State.setFl_fl, h ra, h rb]

/-- What an ALU instruction leaves alone, read off the frame every instruction has (R88). -/
theorem exec_alu_frame {i : Instr} (hAlu : i.op.isAlu = true) {s t : State} (ht : exec i s = .next t) :
    t.pc = s.pc ∧ (∀ a, t.load a = s.load a) ∧ (i.op ≠ .cmp → t.fl = s.fl) ∧ t.ie = s.ie ∧ t.out = s.out ∧
      t.diag = s.diag := by
  obtain ⟨t', ht', frame⟩ := exec_frame i s
  obtain rfl : t = t' := Host.Outcome.next.inj (ht.symm.trans ht')
  have hne {op : Op} (hop : op.isAlu = false) : i.op ≠ op := fun e => by simp [← e, hAlu] at hop
  have hmem : t.mem = s.mem := frame.mem (hne rfl) (hne rfl) (hne rfl)
  refine ⟨frame.aluPc hAlu, fun a => congrArg (Memory.read · a) hmem, (frame.flags · (hne rfl)), ?_, ?_, frame.diag⟩
  · exact frame.ie.resolve_right fun e => hne rfl e.1
  · obtain h | ⟨r, rfl, -⟩ | ⟨r, rfl, -⟩ := frame.out
    · exact h
    · cases hAlu
    · cases hAlu

/-- Settles O46: a legal map's ALU bit is the table's column; the frame comes from the one every instruction has, and
from two states with the same registers each form of ALU instruction does the same. -/
theorem aluTouchesNeitherMemoryNorPc : Obligations.AluTouchesNeitherMemoryNorPc := by
  intro m i hm
  obtain ⟨operands, henc, -⟩ := encode_eq_cons hm i
  have hbit : (m.byte i.op).toNat / 32 % 2 = 1 ↔ i.op.isAlu = true := by
    rw [← aluBit_iff_div, (OpcodeMap.legal_fields hm i.op).2.1]
  refine ⟨_, operands, henc, hbit.trans (isAlu_iff_mem i.op), fun h s => ?_⟩
  have hAlu := hbit.1 h
  obtain ⟨t, ht, -⟩ := exec_frame i s
  obtain ⟨hpc, hload, hfl, hie, hout, hdiag⟩ := exec_alu_frame hAlu ht
  refine ⟨t, ht, hpc, hload, hfl, hie, hout, hdiag, fun u (hregs : SameRegs s u) => ?_⟩
  obtain ⟨t', v, ht', hv, hsame⟩ := hregs.exec_alu hAlu
  obtain rfl : t = t' := Host.Outcome.next.inj (ht.symm.trans ht')
  exact ⟨v, hv, hsame, fun hop hwf => exec_cmp_fl_congr hop hwf hregs ht hv⟩

end Sys2Proof.Machine
end

section
/-! PROOFS. Decoding and encoding are inverse under every legal OPCODE_MAP, and the opcode byte's bit fields describe
the instruction (spec/30_encoding.md R60 to R69). -/

namespace Sys2Proof.Machine

/-- The operand bytes of a format, taken back from its encoding, give the same instruction: one that the format does
not have is ignored (R64). -/
theorem takeOperands_append (op : Op) (a b : Byte) (rest : List Byte) :
    ∃ a' b', takeOperands op.cnt ([a, b].take op.cnt ++ rest) = some (a', b', rest) ∧
      op.instr a' b' = op.instr a b := by
  cases op <;> exact ⟨_, _, rfl, rfl⟩

theorem decode_cons {m : OpcodeMap} {ir : Byte} {op : Op} {tail rest : List Byte} {a b : Byte}
    (hop : decodeOp m ir = some op) (htake : takeOperands (cnt ir) tail = some (a, b, rest)) :
    decode m (ir :: tail) = .ok (op.instr a b, rest) := by
  simp only [decode, hop, htake]

/-- Settles O5: a legal map finds the mnemonic of its own byte, and its CNT is the number of operand bytes that the
encoding has. -/
theorem decodeOfEncode : Obligations.DecodeOfEncode := by
  intro m i rest hm
  obtain ⟨a, b, hi⟩ := i.eq_instr
  rw [hi]
  generalize i.op = op
  obtain ⟨a', b', htake, hinstr⟩ := takeOperands_append op a b rest
  rw [← (OpcodeMap.legal_fields hm op).1] at htake
  rw [encode_instr, List.cons_append, ← (OpcodeMap.legal_fields hm op).1, decode_cons (decodeOp_byte hm op) htake,
    hinstr]

/-- Settles O6: the steps of a decoding, read backwards. -/
theorem encodeOfDecode : Obligations.EncodeOfDecode := by
  intro m i bytes rest hm hdec
  obtain ⟨ir, tail, op, a, b, rfl, hop, htake, rfl⟩ := decode_ok hdec
  obtain rfl := decodeOp_some hop
  obtain ⟨-, rfl⟩ := takeOperands_some htake
  rw [encode_instr, (OpcodeMap.legal_fields hm op).1, List.cons_append]

/-- The bit field SETS_PC as a digit of the byte's value (R60, R62). -/
theorem setsPcBit_iff_div (ir : Byte) : setsPcBit ir = true ↔ ir.toNat / 16 % 2 = 1 := by
  rw [setsPcBit, ← BitVec.testBit_toNat, Nat.testBit_eq_decide_div_mod_eq, decide_eq_true_iff]

/-- The six mnemonics of the SETS_PC column of R66. -/
theorem setsPc_iff_mem (op : Op) : op.setsPc = true ↔ op ∈ [Op.call, .ret, .jmp, .jeq, .jne, .iret] := by
  cases op <;> decide

theorem setsPcBit_default (op : Op) : setsPcBit (OpcodeMap.default.byte op) = op.setsPc := by
  cases op <;> rfl

/-- Settles O7: each bit field is a digit of the byte's value, and a legal map's fields are the table's columns. -/
theorem opcodeBitFieldsDescribeInstruction : Obligations.OpcodeBitFieldsDescribeInstruction := by
  intro m i hm
  obtain ⟨operands, henc, hlen⟩ := encode_eq_cons hm i
  obtain ⟨hcnt, halu, hpc⟩ := OpcodeMap.legal_fields hm i.op
  refine ⟨_, operands, henc, by rw [hlen, cnt_eq_div], by rw [hlen, hcnt]; exact i.op.cnt_le_two, ?_, ?_, ?_⟩
  · rw [← aluBit_iff_div, halu, isAlu_iff_mem]
  · rw [← setsPcBit_iff_div, ← setsPc_iff_mem]
    intro hbit
    by_contra hno
    rw [hpc (Bool.not_eq_true _ ▸ hno)] at hbit
    cases hbit
  · rintro rfl hmem
    rw [← setsPcBit_iff_div, setsPcBit_default, setsPc_iff_mem]
    exact hmem

/-- Settles O3: each word is decoded by evaluation. -/
theorem knownWordsDecode : Obligations.KnownWordsDecode :=
  ⟨rfl, rfl, rfl, rfl, rfl, rfl, rfl, rfl, rfl, rfl, rfl⟩

theorem decodeOp_isSome_iff {m : OpcodeMap} (hm : m.legal = true) (ir : Byte) :
    (decodeOp m ir).isSome = true ↔ ∃ op, m.byte op = ir := by
  constructor
  · intro h
    obtain ⟨op, hop⟩ := Option.isSome_iff_exists.1 h
    exact ⟨op, decodeOp_some hop⟩
  · rintro ⟨op, rfl⟩
    rw [decodeOp_byte hm]
    rfl

/-- The byte values that name an instruction are those of the 28 mnemonics (R66, R69). -/
theorem recognised_perm {m : OpcodeMap} (hm : m.legal = true) :
    ((List.range 256).filter fun n => (decodeOp m (BitVec.ofNat 8 n)).isSome).Perm
      (Op.all.map fun op => (m.byte op).toNat) := by
  have hinj : Function.Injective fun op => (m.byte op).toNat := fun _ _ h =>
    OpcodeMap.legal_inj hm (BitVec.eq_of_toNat_eq h)
  rw [List.perm_ext_iff_of_nodup (List.nodup_range.filter _) (List.Nodup.map hinj (by decide))]
  intro n
  rw [List.mem_filter, List.mem_range, decodeOp_isSome_iff hm, List.mem_map]
  constructor
  · rintro ⟨hn, op, hop⟩
    exact ⟨op, op.mem_all, by rw [hop, BitVec.toNat_ofNat, Nat.mod_eq_of_lt hn]⟩
  · rintro ⟨op, -, rfl⟩
    exact ⟨(m.byte op).isLt, op, (BitVec.ofNat_toNat _ _).trans (BitVec.setWidth_eq _) |>.symm⟩

/-- A legal map leaves 256 - 28 byte values unrecognised. -/
theorem length_unrecognised {m : OpcodeMap} (hm : m.legal = true) :
    ((List.range 256).filter fun n => (decodeOp m (BitVec.ofNat 8 n)).isNone).length = 228 := by
  have hsplit := List.length_eq_length_filter_add (l := List.range 256)
    fun n => (decodeOp m (BitVec.ofNat 8 n)).isSome
  rw [(recognised_perm hm).length_eq, List.length_map, List.length_range] at hsplit
  simp only [Option.not_isSome] at hsplit
  have hall : Op.all.length = 28 := rfl
  omega

/-- Settles O4: the map's legality is evaluated; the count holds of every legal map. -/
theorem defaultOpcodeMapIsLegal : Obligations.DefaultOpcodeMapIsLegal :=
  have hm : OpcodeMap.default.legal = true := by decide
  ⟨hm, length_unrecognised hm⟩

/-- Settles O8, by the two facts about the register an operand byte names. -/
theorem operandByteNamesRegister : Obligations.OperandByteNamesRegister :=
  ⟨regOf_byte, fun _ => regOf_eq_none.2, fun _ _ h => (regOf_eq_some.1 h).symm⟩

end Sys2Proof.Machine
end

section
/-! PROOFS. The reset state, the launch image, the register file and memory (spec/10_state.md R20, R35,
spec/20_memory.md R42, spec/70_reset_and_hazards.md R190 to R192). -/

namespace Sys2Proof.Machine

/-- Settles O1: each value of the reset state is read off it, R0 to R6 by cases on the register. -/
theorem resetValues : Obligations.ResetValues := by
  refine ⟨rfl, fun r hr => ?_, fun _ => rfl, rfl, rfl, rfl, rfl, rfl, rfl, rfl, rfl⟩
  cases r
  case r7 => exact absurd rfl hr
  all_goals rfl

/-- Reading the memory that an image of at most 256 bytes gives. -/
theorem launchMemory_read {image : List Byte} (h : image.length ≤ 256) (a : Byte) :
    (launchMemory image).read a = image.getD a.toNat 0 := by
  have hzero : (0x00 : Byte).toNat = 0 := rfl
  rw [launchMemory, Memory.read_writeAll [] 0x00 a image (by omega), hzero, Nat.zero_add, Nat.sub_zero]
  by_cases hin : a.toNat < image.length
  · rw [if_pos ⟨Nat.zero_le _, hin⟩]
  · rw [if_neg (fun h => hin h.2), List.getD_eq_default _ _ (by omega)]
    rfl

/-- Settles O2: the two branches of the launch, with the image's bytes read back from address 0. -/
theorem launchLoadsImageAtZero : Obligations.LaunchLoadsImageAtZero := by
  intro c ticks image
  constructor
  · intro hfits
    exact ⟨_, if_pos hfits, launchMemory_read hfits, Memory.wf_writeAll 0x00 image rfl, rfl⟩
  · intro hlong
    exact if_neg (Nat.not_le.2 hlong)

theorem State.setX_x_self (s : State) (r : Reg) : s.setX r (s.x r) = s := by
  rw [State.setX, State.x, RegFile.write_read]

theorem regNumbered_byte (r : Reg) : regNumbered (r.byte.extractLsb' 0 3) = r := by
  cases r <;> rfl

/-- Settles O9: read after write for the register file, and the numbering by evaluation on the eight numbers. -/
theorem registersAreSeparateCells : Obligations.RegistersAreSeparateCells := by
  refine ⟨fun s r q v => ⟨Nat.le_of_lt_succ (s.x r).isLt, State.setX_x_same s r v, State.setX_x_other s v,
    State.setX_x_self s r, rfl⟩, fun s u r v h => ⟨?_, ?_⟩, by decide, fun r => ⟨_, regNumbered_byte r⟩, ?_⟩
  · rw [State.x, State.x, h]
  · rw [State.setX_regs, State.setX_regs, h]
  · intro b r h
    rw [regOf_eq_some.1 h, regNumbered_byte]

/-- Settles O10, by read after write. -/
theorem memoryWriteSetsOneCell : Obligations.MemoryWriteSetsOneCell := fun s addr v =>
  ⟨State.store_load_same s addr v, fun _ => State.store_load_other s v, rfl⟩

/-- Settles O11: the two laws of the canonical form. -/
theorem memoryFormIsCanonical : Obligations.MemoryFormIsCanonical :=
  ⟨fun _ addr v => Memory.wf_write addr v, fun _ _ => Memory.wf_ext⟩

/-- Settles O50: each part of the invariant is read off the reset state. -/
theorem invAtReset : Obligations.InvAtReset where
  memory := rfl
  running _ := rfl
  bounds _ h := by cases h
  regIndex _ h := by cases h
  latch := rfl
  opcodes := by decide

end Sys2Proof.Machine
end

section
/-! PROOFS. The ALU instructions, data movement, jumps, halt and output, and the register operand check
(spec/41_alu.md, spec/42_data_move.md, spec/44_control_transfer.md, spec/45_system_io.md, spec/60_exceptions.md
R163). -/

namespace Sys2Proof.Machine

/-! ## Frames -/

/-- A frame from the updated record: only the registers, memory and PC may differ. -/
theorem Frame.of_rest {s t : State} {rs : List Reg} {cells : List Byte}
    (h : t = { s with regs := t.regs, mem := t.mem, pc := t.pc }) (hregs : ∀ r, r ∉ rs → t.x r = s.x r)
    (hmem : ∀ a, a ∉ cells → t.load a = s.load a) : Frame s t rs cells := by
  refine ⟨hregs, hmem, ?_, ?_, ?_, ?_, ?_, ?_, ?_, ?_, ?_⟩ <;> rw [h]

/-- A frame in which PC alone may differ. -/
theorem Frame.of_pc {s t : State} (h : t = { s with pc := t.pc }) : Frame s t [] [] :=
  .of_rest (by rw [h]) (fun r _ => by rw [h]; rfl) (fun a _ => by rw [h]; rfl)

/-- As `of_pc`, the overflow latch being set to the value it has. -/
theorem Frame.of_pc_latch {s t : State} (hovf : s.ovf = false) (h : t = { s with pc := t.pc, ovf := false }) :
    Frame s t [] [] :=
  .of_pc (h.trans (by rw [← hovf]))

theorem Frame.setX (s : State) (r : Reg) (v : Byte) : Frame s (s.setX r v) [r] [] :=
  .of_rest rfl (fun _ hq => State.setX_x_other s v (List.mem_singleton.not.1 hq)) fun _ _ => rfl

theorem Frame.store (s : State) (a v : Byte) : Frame s (s.store a v) [] [a] :=
  .of_rest rfl (fun _ _ => rfl) fun _ hb => State.store_load_other s v (List.mem_singleton.not.1 hb)

/-- A raise is a stop by its fault. -/
theorem StoppedBy.raise (f : Fault) (s : State) : StoppedBy f s (s.raise f) :=
  ⟨rfl, rfl, rfl, .of_pc rfl⟩

/-! ## The forms of instruction on operands that name registers -/

theorem settle_aluPair (f : Byte → Byte → Byte) (a b : Reg) (s : State) :
    settle (aluPair f a.byte b.byte s) = .next (s.setX a (f (s.x a) (s.x b))) := by
  rw [aluPair, twoRegs_byte]; rfl

theorem settle_aluOne (f : Byte → Byte) (a : Reg) (s : State) :
    settle (aluOne f a.byte s) = .next (s.setX a (f (s.x a))) := by
  rw [aluOne, oneReg_byte]; rfl

theorem settle_aluDivide (f : Byte → Byte → Byte) (a : Reg) {b : Reg} {s : State} (h : s.x b ≠ 0) :
    settle (aluDivide f a.byte b.byte s) = .next (s.setX a (f (s.x a) (s.x b))) := by
  rw [aluDivide, twoRegs_byte, if_neg h]; rfl

theorem settle_aluDivide_zero (f : Byte → Byte → Byte) (a : Reg) {b : Reg} {s : State} (h : s.x b = 0) :
    settle (aluDivide f a.byte b.byte s) = .next (s.raise .divideByZero) := by
  rw [aluDivide, twoRegs_byte, if_pos h]; rfl

/-- An instruction that writes one register: what holds of the value written, and the frame. -/
theorem exec_setX {i : Instr} {s : State} {a : Reg} {v : Byte} {P : Byte → Prop}
    (h : exec i s = .next (s.setX a v)) (hv : P v) :
    ∃ t, exec i s = .next t ∧ P (t.x a) ∧ t.pc = s.pc ∧ Frame s t [a] [] :=
  ⟨_, h, (State.setX_x_same s a v).symm ▸ hv, rfl, Frame.setX s a v⟩

/-! ## The results -/

theorem toNat_aluDiv (x y : Byte) : (aluDiv x y).toNat = x.toNat / y.toNat := by
  rw [aluDiv, trunc8_toNat, Nat.mod_eq_of_lt ((Nat.div_le_self _ _).trans_lt x.isLt)]

theorem toNat_aluMod (x y : Byte) : (aluMod x y).toNat = x.toNat % y.toNat := by
  rw [aluMod, trunc8_toNat, Nat.mod_eq_of_lt ((Nat.mod_le _ _).trans_lt x.isLt)]

theorem toNat_aluShl (x n : Byte) : (aluShl x n).toNat = x.toNat * 2 ^ n.toNat % 256 := by
  rw [aluShl, trunc8_toNat, Nat.shiftLeft_eq]

theorem toNat_aluShr (x n : Byte) : (aluShr x n).toNat = x.toNat / 2 ^ n.toNat := by
  rw [aluShr, trunc8_toNat, Nat.shiftRight_eq_div_pow, Nat.mod_eq_of_lt ((Nat.div_le_self _ _).trans_lt x.isLt)]

/-- 2 to the power of an amount of 8 or more is a multiple of 256. -/
theorem dvd_two_pow {n : Nat} (h : 8 ≤ n) : 256 ∣ 2 ^ n := pow_dvd_pow 2 h

theorem aluShl_eq_zero (x : Byte) {n : Byte} (h : 8 ≤ n.toNat) : aluShl x n = 0 := by
  apply BitVec.eq_of_toNat_eq
  rw [toNat_aluShl]
  exact Nat.mod_eq_zero_of_dvd ((dvd_two_pow h).mul_left _)

theorem aluShr_eq_zero (x : Byte) {n : Byte} (h : 8 ≤ n.toNat) : aluShr x n = 0 := by
  apply BitVec.eq_of_toNat_eq
  rw [toNat_aluShr]
  exact Nat.div_eq_of_lt (x.isLt.trans_le (Nat.le_of_dvd (Nat.two_pow_pos _) (dvd_two_pow h)))

theorem compareFlags_self (x : Byte) : compareFlags x x = 0b00000001 := if_pos rfl

theorem compareFlags_greater {x y : Byte} (h : y.toNat < x.toNat) : compareFlags x y = 0b00000010 := by
  have hne : x ≠ y := fun e => by rw [e] at h; exact Nat.lt_irrefl _ h
  rw [compareFlags, if_neg hne, if_pos h]

theorem compareFlags_less {x y : Byte} (h : x.toNat < y.toNat) : compareFlags x y = 0b00000100 := by
  have hne : x ≠ y := fun e => by rw [e] at h; exact Nat.lt_irrefl _ h
  rw [compareFlags, if_neg hne, if_neg (Nat.lt_asymm h)]

/-! ## The ALU instructions -/

/-- Settles O12: the two-register form, with results truncated modulo 256. -/
theorem addSubMulWrapModulo256 : Obligations.AddSubMulWrapModulo256 := fun a b s =>
  ⟨⟨rfl, exec_setX (P := (BitVec.toNat · = _)) (settle_aluPair aluAdd a b s) (trunc8_toNat _)⟩,
    ⟨rfl, exec_setX (P := (BitVec.toNat · = _)) (settle_aluPair aluSub a b s) (trunc8_toNat _)⟩,
    rfl, exec_setX (P := (BitVec.toNat · = _)) (settle_aluPair aluMul a b s) (trunc8_toNat _)⟩

/-- A bad operand_b of a two-register instruction is reported (R65, R163). -/
theorem exec_bad_second {i : Instr} {a : Reg} {b : Byte} {s : State} {effect : Reg → Reg → Raising State}
    (h : exec i s = settle (twoRegs a.byte b s effect)) (hb : 7 < b.toNat) :
    ∃ t, exec i s = .next t ∧ StoppedBy (.regIndexFault b) s t :=
  ⟨_, by rw [h, twoRegs_bad_second a s effect hb]; rfl, .raise _ s⟩

/-- A bad operand_a of a two-register instruction is reported, whatever operand_b is (R65, R163). -/
theorem exec_bad_first {i : Instr} {a b : Byte} {s : State} {effect : Reg → Reg → Raising State}
    (h : exec i s = settle (twoRegs a b s effect)) (ha : 7 < a.toNat) :
    ∃ t, exec i s = .next t ∧ StoppedBy (.regIndexFault a) s t :=
  ⟨_, by rw [h, twoRegs_bad_first b s effect ha]; rfl, .raise _ s⟩

/-- A bad operand of a one-register instruction is reported (R65, R163). -/
theorem exec_bad_only {i : Instr} {a : Byte} {s : State} {effect : Reg → Raising State}
    (h : exec i s = settle (oneReg a s effect)) (ha : 7 < a.toNat) :
    ∃ t, exec i s = .next t ∧ StoppedBy (.regIndexFault a) s t :=
  ⟨_, by rw [h, oneReg_bad s effect ha]; rfl, .raise _ s⟩

/-- Settles O13: the division form by its divisor, after the register checks. -/
theorem divModOrDivideByZero : Obligations.DivModOrDivideByZero := fun a _ s =>
  ⟨rfl, rfl,
    fun hne => ⟨exec_setX (P := (BitVec.toNat · = _)) (settle_aluDivide aluDiv a hne) (toNat_aluDiv _ _),
      exec_setX (P := (BitVec.toNat · = _)) (settle_aluDivide aluMod a hne) (toNat_aluMod _ _)⟩,
    fun hzero => ⟨⟨_, settle_aluDivide_zero aluDiv a hzero, .raise _ s⟩,
      ⟨_, settle_aluDivide_zero aluMod a hzero, .raise _ s⟩⟩,
    fun _ hc => ⟨exec_bad_second rfl hc, exec_bad_second rfl hc⟩,
    fun _ _ hc => ⟨exec_bad_first rfl hc, exec_bad_first rfl hc⟩⟩

/-- Settles O14: the one-register form and its three results. -/
theorem incDecNotResults : Obligations.IncDecNotResults := fun a s =>
  ⟨⟨rfl, exec_setX (P := (BitVec.toNat · = _)) (settle_aluOne aluInc a s) (trunc8_toNat _)⟩,
    ⟨rfl, exec_setX (P := (BitVec.toNat · = _)) (settle_aluOne aluDec a s) (trunc8_toNat _)⟩,
    rfl, exec_setX (P := (BitVec.toNat · = _)) (settle_aluOne aluNot a s) BitVec.toNat_not⟩

/-- Settles O15: CMP's effect is one update of FL, whose value the comparison decides. -/
theorem cmpSetsExactlyOneFlag : Obligations.CmpSetsExactlyOneFlag := fun a b s =>
  ⟨_, exec_cmp_byte a b s, fun he => by rw [State.setFl_fl, he, compareFlags_self], compareFlags_greater,
    compareFlags_less, rfl, .of_pc rfl⟩

/-- Settles O16: the two-register form, with the library's bitwise lemmas. -/
theorem andOrXorBitByBit : Obligations.AndOrXorBitByBit := fun a b s =>
  ⟨⟨rfl, exec_setX (P := fun v => ∀ n, v.getLsbD n = ((s.x a).getLsbD n && (s.x b).getLsbD n))
      (settle_aluPair aluAnd a b s) fun _ => BitVec.getLsbD_and⟩,
    ⟨rfl, exec_setX (P := fun v => ∀ n, v.getLsbD n = ((s.x a).getLsbD n || (s.x b).getLsbD n))
      (settle_aluPair aluOr a b s) fun _ => BitVec.getLsbD_or⟩,
    rfl, exec_setX (P := fun v => ∀ n, v.getLsbD n = ((s.x a).getLsbD n ^^ (s.x b).getLsbD n))
      (settle_aluPair aluXor a b s) fun _ => BitVec.getLsbD_xor⟩

/-- Settles O17: the two-register form; from 8 up 256 divides the power of two. -/
theorem shiftsByWholeRegister : Obligations.ShiftsByWholeRegister := by
  intro a b s
  constructor
  · obtain ⟨t, ht, ⟨hx, hzero⟩, hrest⟩ := exec_setX (i := .shl a.byte b.byte)
      (P := fun v => v.toNat = _ ∧ (8 ≤ (s.x b).toNat → v = 0)) (settle_aluPair aluShl a b s)
      ⟨toNat_aluShl _ _, aluShl_eq_zero _⟩
    exact ⟨t, ht, hx, hzero, hrest⟩
  · obtain ⟨t, ht, ⟨hx, hzero⟩, hrest⟩ := exec_setX (i := .shr a.byte b.byte)
      (P := fun v => v.toNat = _ ∧ (8 ≤ (s.x b).toNat → v = 0)) (settle_aluPair aluShr a b s)
      ⟨toNat_aluShr _ _, aluShr_eq_zero _⟩
    exact ⟨t, ht, hx, hzero, hrest⟩

/-! ## Data movement -/

theorem exec_ldi_byte (a : Reg) (imm : Byte) (s : State) : exec (.ldi a.byte imm) s = .next (s.setX a imm) :=
  (settle_eq _).trans (by rw [oneReg_byte]; rfl)

theorem exec_ld_byte (a b : Reg) (s : State) :
    exec (.ld a.byte b.byte) s = .next (s.setX a (s.load (s.x b))) :=
  (settle_eq _).trans (by rw [twoRegs_byte]; rfl)

theorem exec_st_byte (a b : Reg) (s : State) :
    exec (.st a.byte b.byte) s = .next (s.store (s.x a) (s.x b)) :=
  (settle_eq _).trans (by rw [twoRegs_byte]; rfl)

/-- Settles O18: LDI and LD are one register write, ST is one memory write. -/
theorem loadImmediateLoadStore : Obligations.LoadImmediateLoadStore := fun a b imm s =>
  ⟨⟨rfl, exec_setX (P := (· = _)) (exec_ldi_byte a imm s) rfl⟩,
    ⟨rfl, exec_setX (P := (· = _)) (exec_ld_byte a b s) rfl⟩,
    rfl, _, exec_st_byte a b s, State.store_load_same s _ _, rfl, Frame.store s _ _⟩

/-! ## Jumps -/

theorem exec_jmp_byte (a : Reg) (s : State) : exec (.jmp a.byte) s = .next (s.setPc (s.x a)) :=
  (settle_eq _).trans (by rw [oneReg_byte]; rfl)

theorem settle_branch (op : Op) (taken : Bool) (a : Reg) (s : State) :
    settle (branch op taken a.byte s) = .next (if taken then s.setPc (s.x a) else (s.begun op).advancePc 2) := by
  rw [branch, oneReg_byte]; rfl

/-- A jump taken goes to the register's value and changes nothing else. -/
theorem exec_taken {i : Instr} {op : Op} {taken : Bool} {a : Reg} {s : State}
    (h : exec i s = settle (branch op taken a.byte s)) (htaken : taken = true) :
    ∃ t, exec i s = .next t ∧ t.pc = s.x a ∧ Frame s t [] [] :=
  ⟨_, by rw [h, settle_branch, if_pos htaken], rfl, .of_pc rfl⟩

/-- A jump not taken advances from its own address by 2 and latches the carry (D28). -/
theorem exec_notTaken {i : Instr} {op : Op} {taken : Bool} {a : Reg} {s : State}
    (h : exec i s = settle (branch op taken a.byte s)) (htaken : taken = false) :
    ∃ t, exec i s = .next t ∧ t.pc = s.ownAddress op + 2 ∧
      Frame { s with ovf := decide (0xFD < (s.ownAddress op).toNat) } t [] [] := by
  refine ⟨_, by rw [h, settle_branch, if_neg (by simp [htaken])], trunc8_add _ 2, .of_pc ?_⟩
  have hcarry : 256 ≤ (s.ownAddress op).toNat + 2 ↔ 0xFD < (s.ownAddress op).toNat := by omega
  simp only [State.advancePc, State.begun_pc, hcarry]
  rfl

/-- Settles O25: JMP, and the two conditional jumps by FL's bit 0. -/
theorem jumpsReadOnlyEqualFlag : Obligations.JumpsReadOnlyEqualFlag := fun a s =>
  ⟨⟨_, exec_jmp_byte a s, rfl, .of_pc rfl⟩,
    fun hE => ⟨exec_taken rfl hE, exec_notTaken rfl (by rw [State.flagE, hE]; rfl)⟩,
    fun hE => ⟨exec_taken rfl (by rw [State.flagE, hE]; rfl), exec_notTaken rfl hE⟩⟩

/-! ## Halt and output -/

theorem exec_prn_byte (a : Reg) (s : State) : exec (.prn a.byte) s = .next (s.emit (.prn (s.x a))) :=
  (settle_eq _).trans (by rw [oneReg_byte]; rfl)

theorem exec_pra_byte (a : Reg) (s : State) : exec (.pra a.byte) s = .next (s.emit (.pra (s.x a))) :=
  (settle_eq _).trans (by rw [oneReg_byte]; rfl)

/-- Settles O26: each of the three is one update of one field. -/
theorem haltAndOutput : Obligations.HaltAndOutput := fun a s =>
  ⟨⟨_, rfl, rfl, rfl, .of_pc rfl⟩, ⟨_, exec_prn_byte a s, rfl, rfl, .of_pc rfl⟩,
    ⟨_, exec_pra_byte a s, rfl, rfl, .of_pc rfl⟩⟩

/-! ## The register operand check -/

/-- Every instruction is one of three forms by its register operands: none, one checked, two checked in order. -/
theorem exec_form (i : Instr) (s : State) : i.regOperands = [] ∨
    (∃ a effect, i.regOperands = [a] ∧ exec i s = settle (oneReg a s effect)) ∨
    (∃ a b effect, i.regOperands = [a, b] ∧ exec i s = settle (twoRegs a b s effect)) := by
  cases i
  case hlt | ret | iret => exact .inl rfl
  case ldi | prn | pra | push | pop | call | jmp | jeq | jne | inc | dec | not =>
    exact .inr (.inl ⟨_, _, rfl, rfl⟩)
  case ld | st | add | sub | mul | div | mod | cmp | and | or | xor | shl | shr =>
    exact .inr (.inr ⟨_, _, _, rfl, rfl⟩)

theorem wf_iff (i : Instr) : i.wf = true ↔ ∀ b ∈ i.regOperands, b.toNat ≤ 7 := by
  simp only [Instr.wf, List.all_eq_true, namesRegister_iff]

/-- Settles O27: by the form of the instruction; the first bad byte is operand_a, or operand_b after a good one. -/
theorem badRegisterOperandStops : Obligations.BadRegisterOperandStops := by
  intro i s
  refine ⟨wf_iff i, fun b hfind => ?_⟩
  have hbad : 7 < b.toNat := by simpa using List.find?_some hfind
  obtain hnone | ⟨a, effect, hone, hexec⟩ | ⟨a, c, effect, htwo, hexec⟩ := exec_form i s
  · rw [hnone] at hfind
    cases hfind
  · rw [hone] at hfind
    obtain rfl := List.mem_singleton.1 (List.mem_of_find?_eq_some hfind)
    exact exec_bad_only hexec hbad
  · rw [htwo, List.find?_cons] at hfind
    obtain ⟨r, rfl, -⟩ | ⟨ha, -⟩ := s.reg_cases a
    · have hgood : ¬ 7 < r.byte.toNat := Nat.not_lt.2 (namesRegister_iff.1 (by cases r <;> rfl))
      rw [decide_eq_false hgood] at hfind
      obtain rfl := List.mem_singleton.1 (List.mem_of_find?_eq_some hfind)
      exact exec_bad_second hexec hbad
    · rw [decide_eq_true ha] at hfind
      obtain rfl := Option.some.inj hfind
      exact exec_bad_first hexec hbad

end Sys2Proof.Machine
end

section
/-! PROOFS. PUSH, POP, CALL and RET, and what pairs of them give back (spec/43_stack.md, spec/44_control_transfer.md
section 2, spec/95_test_vectors.md S5 and S6). -/

namespace Sys2Proof.Machine

/-! ## One push -/

theorem pushed_x_eq (v : Byte) (s : State) (q : Reg) :
    (pushed v s).x q = if q = .r7 then s.x .r7 - 1 else s.x q := State.setX_x s .r7 q _

@[simp] theorem pushed_load_same (v : Byte) (s : State) : (pushed v s).load (s.x .r7 - 1) = v := by
  rw [pushed_load, if_pos rfl]

theorem Frame.pushed (v : Byte) (s : State) : Frame s (pushed v s) [.r7] [s.x .r7 - 1] :=
  .of_rest rfl (fun _ hq => pushed_x v s (List.mem_singleton.not.1 hq))
    fun a ha => by rw [pushed_load, if_neg (List.mem_singleton.not.1 ha)]

/-- PUSH stores the register as it stands after the decrement (D19). -/
theorem exec_push_ok (a : Reg) {s : State} (h : s.x .r7 ≠ 0x00 ∨ s.wraps) :
    exec (.push a.byte) s = .next (pushed (if a = .r7 then s.x .r7 - 1 else s.x a) s) := by
  refine (settle_eq _).trans ?_
  rw [oneReg_byte, spDec_ok h, ← State.setX_x]
  rfl

theorem exec_push_fault (a : Reg) {s : State} (h : s.x .r7 = 0x00) (hp : s.checked) :
    exec (.push a.byte) s = .next (s.raise (.boundsFault .stackPush)) := by
  refine (settle_eq _).trans ?_
  rw [oneReg_byte, spDec_fault h hp]
  rfl

/-- Settles O19: the two outcomes of the decrement. -/
theorem pushStoresBelowStackPointer : Obligations.PushStoresBelowStackPointer := fun a s =>
  ⟨fun h => ⟨_, exec_push_ok a h, pushed_sp _ s, pushed_load_same _ s, rfl, .pushed _ s⟩,
    fun h hp => ⟨_, exec_push_fault a h hp, .raise _ s⟩⟩

/-! ## One pop -/

/-- SP after POP's register write and before its increment (D19). -/
theorem loaded_sp (a : Reg) (s : State) (v : Byte) :
    (s.setX a v).x .r7 = if a = .r7 then v else s.x .r7 := by
  rw [State.setX_x]
  exact if_congr eq_comm rfl rfl

theorem exec_pop_ok (a : Reg) {s : State} {sp : Byte} (hsp : (s.setX a (s.load (s.x .r7))).x .r7 = sp)
    (h : sp ≠ 0xFF ∨ s.wraps) :
    exec (.pop a.byte) s = .next ((s.setX a (s.load (s.x .r7))).setX .r7 (sp + 1)) := by
  refine (settle_eq _).trans ?_
  rw [oneReg_byte, spInc_ok (hsp ▸ h), hsp]
  rfl

theorem exec_pop_fault (a : Reg) {s : State} (h : (s.setX a (s.load (s.x .r7))).x .r7 = 0xFF) (hp : s.checked) :
    exec (.pop a.byte) s = .next ((s.setX a (s.load (s.x .r7))).raise (.boundsFault .stackPop)) := by
  refine (settle_eq _).trans ?_
  rw [oneReg_byte, spInc_fault h hp]
  rfl

/-- Settles O20: the two outcomes of the increment of SP as it stands after the register write. -/
theorem popLoadsThenIncrements : Obligations.PopLoadsThenIncrements := by
  intro a s v sp
  have hsp : (s.setX a v).x .r7 = sp := loaded_sp a s v
  constructor
  · intro h
    refine ⟨_, exec_pop_ok a hsp h, State.setX_x_same _ _ _, fun hne => ?_, rfl,
      .of_rest rfl (fun r hr => ?_) fun _ _ => rfl⟩
    · rw [State.setX_x_other _ _ hne, State.setX_x_same]
    · simp only [List.mem_cons, List.not_mem_nil, or_false, not_or] at hr
      rw [State.setX_x_other _ _ hr.2, State.setX_x_other _ _ hr.1]
  · intro h hp
    exact ⟨_, exec_pop_fault a (hsp.trans h) hp, State.setX_x_same _ _ _, rfl,
      .of_rest rfl (fun r hr => State.setX_x_other s v (List.mem_singleton.not.1 hr)) fun _ _ => rfl⟩

theorem byte_pred_succ (v : Byte) : v - 1 + 1 = v := BitVec.sub_add_cancel v 1

/-- SP after a push is not 0xFF where it was not 0x00. -/
theorem byte_pred_ne {v : Byte} (h : v ≠ 0x00) : v - 1 ≠ 0xFF := fun e => h <| by
  rw [← byte_pred_succ v, e]
  rfl

/-- Settles O21: POP reads back the cell that PUSH wrote, and both frames leave every other register. -/
theorem pushThenPopRestores : Obligations.PushThenPopRestores := by
  intro a s h
  obtain ⟨t, ht, hsp, hcell, hpc, hframe⟩ := (pushStoresBelowStackPointer a s).1 h
  obtain ⟨hregs, -, hfl, -, hrun, hfault, -, -, -, -, hconfig⟩ := hframe
  have hv : t.load (t.x .r7) = if a = .r7 then s.x .r7 - 1 else s.x a := by rw [hsp, hcell]
  have hsp' : (if a = .r7 then t.load (t.x .r7) else t.x .r7) = s.x .r7 - 1 := by
    rw [hv, hsp]; split <;> rfl
  have hroom : s.x .r7 - 1 ≠ 0xFF ∨ t.wraps := h.imp byte_pred_ne fun hw => by rw [State.wraps, hconfig]; exact hw
  obtain ⟨u, hu, husp, hua, hupc, huframe⟩ := (popLoadsThenIncrements a t).1 (hsp'.symm ▸ hroom)
  obtain ⟨huregs, -, hufl, -, hurun, hufault, -⟩ := huframe
  refine ⟨t, u, ht, hu, fun r => ?_, hufl.trans hfl, hupc.trans hpc, hurun.trans hrun, hufault.trans hfault⟩
  by_cases h7 : r = .r7
  · rw [h7, husp, hsp', byte_pred_succ]
  · by_cases hra : r = a
    · subst hra
      rw [hua h7, hv, if_neg h7]
    · rw [huregs r (by simp [h7, hra]), hregs r (by simp [h7])]

/-! ## CALL and RET -/

/-- A piece of a cycle goes on with its value (R160). -/
theorem Raising.ok_bind {α β : Type} (v : α) (f : α → Raising β) : ((.ok v : Raising α) >>= f) = f v := rfl

theorem returnAddress_ok {s : State} (h : s.pc.toNat ≤ 0xFD ∨ s.wraps) : returnAddress s = .ok (s.pc + 2) := by
  obtain hok | ⟨hover, hp, -⟩ := returnAddress_cases s
  · rw [hok, trunc8_add]
    rfl
  · obtain h | h := h
    · omega
    · exact absurd (hp.symm.trans h) (by decide)

theorem returnAddress_fault {s : State} (h : 0xFD < s.pc.toNat) (hp : s.checked) :
    returnAddress s = .error (s.raise (.boundsFault .pcOverflow)) := by
  rw [returnAddress, if_pos (by omega), outOfBounds_checked _ hp]
  rfl

/-- CALL on an operand that names a register: its own pseudocode, from PC at its address (R85, R140). -/
theorem exec_call_byte (a : Reg) (s : State) : exec (.call a.byte) s = settle (do
    let ret ← returnAddress (s.begun .call)
    let s ← push ret (s.begun .call)
    return s.setPc (s.x a)) :=
  congrArg settle (oneReg_byte a s _)

theorem exec_call_ok (a : Reg) {s : State} (hpc : (s.ownAddress .call).toNat ≤ 0xFD ∨ s.wraps)
    (hsp : s.x .r7 ≠ 0x00 ∨ s.wraps) :
    exec (.call a.byte) s = .next ((pushed (s.ownAddress .call + 2) (s.begun .call)).setPc
      (if a = .r7 then s.x .r7 - 1 else s.x a)) := by
  rw [exec_call_byte, returnAddress_ok (s := s.begun .call) hpc, Raising.ok_bind, push_ok (s := s.begun .call) _ hsp,
    Raising.ok_bind, pushed_x_eq]
  rfl

theorem exec_call_overflow (a : Reg) {s : State} (hpc : 0xFD < (s.ownAddress .call).toNat) (hp : s.checked) :
    exec (.call a.byte) s = .next ((s.begun .call).raise (.boundsFault .pcOverflow)) := by
  rw [exec_call_byte, returnAddress_fault (s := s.begun .call) hpc hp]
  rfl

theorem exec_call_stackFault (a : Reg) {s : State} (hpc : (s.ownAddress .call).toNat ≤ 0xFD)
    (hsp : s.x .r7 = 0x00) (hp : s.checked) :
    exec (.call a.byte) s = .next ((s.begun .call).raise (.boundsFault .stackPush)) := by
  rw [exec_call_byte, returnAddress_ok (s := s.begun .call) (.inl hpc), Raising.ok_bind,
    push_fault (s := s.begun .call) _ hsp hp]
  rfl

/-- Settles O22: the outcomes of the return address and, after it, of the push. -/
theorem callPushesReturnAddress : Obligations.CallPushesReturnAddress := by
  intro a s own
  refine ⟨fun hpc hsp => ⟨_, exec_call_ok a hpc hsp, pushed_load_same (own + 2) (s.begun .call),
      pushed_sp (own + 2) (s.begun .call), rfl, ?_⟩,
    fun hpc hp => ⟨_, exec_call_overflow a hpc hp, .raise _ (s.begun .call)⟩,
    fun hpc hsp hp => ⟨_, exec_call_stackFault a hpc hsp hp, .raise _ (s.begun .call)⟩⟩
  obtain ⟨hregs, hmem, -⟩ := Frame.pushed (own + 2) (s.begun .call)
  exact .of_rest rfl hregs hmem

theorem exec_ret_ok {s : State} (h : s.x .r7 ≠ 0xFF ∨ s.wraps) :
    exec .ret s = .next (((s.begun .ret).setX .r7 (s.x .r7 + 1)).setPc (s.load (s.x .r7))) := by
  refine (settle_eq _).trans ?_
  rw [pop_ok (s := s.begun .ret) h]
  rfl

theorem exec_ret_fault {s : State} (h : s.x .r7 = 0xFF) (hp : s.checked) :
    exec .ret s = .next ((s.begun .ret).raise (.boundsFault .stackPop)) := by
  refine (settle_eq _).trans ?_
  rw [pop_fault (s := s.begun .ret) h hp]
  rfl

/-- Settles O23: the two outcomes of the pop. -/
theorem retPopsProgramCounter : Obligations.RetPopsProgramCounter := by
  intro s
  refine ⟨fun h => ⟨_, exec_ret_ok h, rfl, State.setX_x_same (s.begun .ret) .r7 _, ?_⟩,
    fun h hp => ⟨_, exec_ret_fault h hp, .raise _ (s.begun .ret)⟩⟩
  obtain ⟨hregs, hmem, -⟩ := Frame.setX (s.begun .ret) .r7 (s.x .r7 + 1)
  exact .of_rest rfl hregs hmem

/-- Settles O24: SP after the push is not 0xFF, so RET pops the cell that CALL pushed. -/
theorem callThenRetReturns : Obligations.CallThenRetReturns := by
  intro a s own hpc hsp
  obtain ⟨t, ht, hcell, htsp, -, hframe⟩ := (callPushesReturnAddress a s).1 hpc hsp
  obtain ⟨-, -, -, -, -, -, -, -, -, -, hconfig⟩ := hframe
  refine ⟨t, ht, fun u husp hucell huconfig => ?_⟩
  have hroom : u.x .r7 ≠ 0xFF ∨ u.wraps := by
    rw [husp, htsp, State.wraps, huconfig, hconfig]
    exact hsp.imp_left byte_pred_ne
  obtain ⟨v, hv, hvpc, hvsp, hvframe⟩ := (retPopsProgramCounter u).1 hroom
  obtain ⟨-, -, -, -, hrun, -⟩ := hvframe
  refine ⟨v, hv, ?_, ?_, hrun⟩
  · rw [hvpc, husp, hucell, htsp, hcell]
  · rw [hvsp, husp, htsp, byte_pred_succ]

end Sys2Proof.Machine
end

section
/-! PROOFS. The timer check, interrupt entry and the return from an interrupt (spec/60_exceptions.md sections 2 to 4,
spec/95_test_vectors.md S7). -/

namespace Sys2Proof.Machine

/-! ## The two checks -/

theorem tick_eq_head (s : State) : s.tick = (s.ticks.head? == some true) := by
  rw [State.tick, List.headD_eq_head?_getD]
  cases s.ticks.head? with
  | none => rfl
  | some b => cases b <;> rfl

/-- Bit `n` of R6 after the timer check: a tick sets bit 0 (R171). -/
theorem timerCheck_r6_bit (s : State) (n : Nat) :
    ((timerCheck s).x .r6).getLsbD n = ((s.x .r6).getLsbD n || (decide (n = 0) && s.tick)) := by
  rw [timerCheck_eq, State.dropTick_x, State.setX_x_same]
  cases s.tick
  · rw [if_neg Bool.false_ne_true, Bool.and_false, Bool.or_false]
  · have hone : (0b00000001 : Byte).getLsbD n = decide (n = 0) := BitVec.getLsbD_one.trans (Bool.true_and _)
    rw [if_pos rfl, BitVec.getLsbD_or, hone, Bool.and_true]

/-- Settles O29: R6 bit by bit, and the one update that the timer check is. -/
theorem timerCheckRaisesSourceZero : Obligations.TimerCheckRaisesSourceZero := by
  intro s t
  have ht : t = _ := timerCheck_eq s
  refine ⟨fun n => ?_, by rw [ht]; rfl, by rw [ht]; rfl, .of_rest (by rw [ht]; rfl) (fun r hr => ?_)
    (fun a _ => by rw [ht]; rfl)⟩
  · rw [timerCheck_r6_bit, tick_eq_head]
  · rw [ht, State.dropTick_x, State.setX_x_other _ _ (List.mem_singleton.not.1 hr)]
    rfl

/-- Settles O30: the two branches of the check. -/
theorem interruptTakenExactlyWhenPending : Obligations.InterruptTakenExactlyWhenPending := fun _ =>
  ⟨interruptCheck_taken, interruptCheck_idle⟩

/-- Settles O41: the step is the raise of the interrupt check, whose frame has the ports and the ticks. -/
theorem entryFaultEndsCycle : Obligations.EntryFaultEndsCycle := by
  intro s t hrun hcheck
  obtain ⟨u, hu, -⟩ | ⟨u, hu, hframe, hstop, -⟩ := interruptCheck_cases (s.setOvf false)
  · rw [hcheck] at hu; cases hu
  · rw [hcheck] at hu
    cases hu
    exact ⟨step_entryFault hrun hcheck, hstop, hframe.ticks, hframe.diag, hframe.out⟩

/-! ## Interrupt entry -/

/-- The nine cells below SP, highest first: where interrupt entry saves the frame (R173). -/
def frameCells (s : State) : List Byte := (List.range 9).map fun k => s.x .r7 - BitVec.ofNat 8 (k + 1)

theorem entered_load_other {s : State} {a : Byte} (h : a ∉ frameCells s) : (entered s).load a = s.load a := by
  rw [entered_load, if_neg]
  intro hd
  exact h (List.mem_map.2 ⟨depth s a, List.mem_range.2 hd, (depth_spec s a).symm⟩)

/-- Settles O31: each of the nine cells holds its value of the frame, every other cell is as it was. -/
theorem interruptEntrySavesNineBytes : Obligations.InterruptEntrySavesNineBytes := by
  intro s h sp
  have hcell {k : Nat} (hk : k < 9) := entered_cell s hk
  refine ⟨_, interruptEntry_ok h, by rw [entered_rest], entered_r6 s, entered_sp s,
    hcell (k := 0) (by decide), hcell (k := 1) (by decide), hcell (k := 2) (by decide), hcell (k := 3) (by decide),
    hcell (k := 4) (by decide), hcell (k := 5) (by decide), hcell (k := 6) (by decide), hcell (k := 7) (by decide),
    hcell (k := 8) (by decide), entered_pc s, .of_rest (entered_rest s) (fun r hr => ?_)
    fun a (ha : a ∉ frameCells s) => entered_load_other ha⟩
  simp only [List.mem_cons, List.not_mem_nil, or_false, not_or] at hr
  exact entered_x s hr.1 hr.2

/-- The cell `k + 1` below SP, as an address computed in numbers. -/
theorem trunc8_below {v : Byte} {k : Nat} (h : k < v.toNat) :
    trunc8 (v.toNat - 1 - k) = v - BitVec.ofNat 8 (k + 1) := by
  have hv := v.isLt
  apply BitVec.eq_of_toNat_eq
  rw [trunc8_toNat, toNat_sub_byte, BitVec.toNat_ofNat]
  omega

/-- A cell from SP up is not among the `SP` cells below it. -/
theorem depth_ge {s : State} {a : Byte} (h : (s.x .r7).toNat ≤ a.toNat) : (s.x .r7).toNat ≤ depth s a := by
  have ha := a.isLt
  have hv := (s.x .r7).isLt
  rw [depth, toNat_sub_byte, toNat_pred]
  omega

/-- The state after the pushes of interrupt entry that fit, `n` of them. -/
def enteredPart (n : Nat) (s : State) : State := pushedAll ((entryCleared s).frame.take n) (entryCleared s)

theorem enteredPart_rest (n : Nat) (s : State) : enteredPart n s =
    { s with ie := false, regs := (enteredPart n s).regs, mem := (enteredPart n s).mem } := by
  rw [enteredPart, pushedAll_rest]; rfl

theorem enteredPart_x (n : Nat) {s : State} {r : Reg} (h : r ≠ .r7) :
    (enteredPart n s).x r = if r = .r6 then 0x00 else s.x r := by
  rw [enteredPart, pushedAll_x _ _ h, entryCleared, State.setX_x]; rfl

theorem enteredPart_sp {n : Nat} (h : n ≤ 9) (s : State) :
    (enteredPart n s).x .r7 = s.x .r7 - BitVec.ofNat 8 n := by
  rw [enteredPart, pushedAll_sp, List.length_take_of_le h]; rfl

/-- Memory after those pushes: the frame's first values below the old SP. -/
theorem enteredPart_load {n : Nat} (h : n ≤ 9) (s : State) (a : Byte) : (enteredPart n s).load a =
    if depth s a < n then
      [s.pc, s.fl, s.x .r0, s.x .r1, s.x .r2, s.x .r3, s.x .r4, s.x .r5, 0].getD (depth s a) 0
    else s.load a := by
  have hlen : ((entryCleared s).frame.take n).length = n := List.length_take_of_le h
  have hdepth : depth (entryCleared s) a = depth s a := rfl
  rw [enteredPart, pushedAll_load _ _ _ (by omega), hlen, hdepth]
  by_cases hd : depth s a < n
  · rw [if_pos hd, if_pos hd, List.getD_eq_getElem?_getD, List.getElem?_take_of_lt hd, ← List.getD_eq_getElem?_getD]
    rfl
  · rw [if_neg hd, if_neg hd]; rfl

/-- Settles O32: the first SP values of the frame stay, and the next push raises. -/
theorem interruptEntryStackFault : Obligations.InterruptEntryStackFault := by
  intro s hlt hp
  have hle : (s.x .r7).toNat ≤ 9 := by omega
  have hrest := enteredPart_rest (s.x .r7).toNat s
  refine ⟨(enteredPart (s.x .r7).toNat s).raise (.boundsFault .stackPush), interruptEntry_fault hlt hp,
    enteredPart_x _ (by decide), ?_, by rw [hrest]; rfl, fun k hk => ?_, fun a ha => ?_,
    .of_rest (by rw [hrest]; rfl) (fun r hr => ?_) fun _ _ => rfl⟩
  · rw [State.raise_x, enteredPart_sp hle, BitVec.ofNat_toNat, BitVec.setWidth_eq, BitVec.sub_self]
    rfl
  · rw [State.raise_load, enteredPart_load hle, trunc8_below hk, depth_below s (by omega), if_pos hk]
    exact List.getD_append [s.pc, s.fl, s.x .r0, s.x .r1, s.x .r2, s.x .r3, s.x .r4, s.x .r5] [0] 0 k
      (Nat.lt_of_lt_of_le hk (Nat.le_of_lt_succ hlt))
  · rw [State.raise_load, enteredPart_load hle, if_neg (Nat.not_lt.2 (depth_ge ha))]
  · simp only [List.mem_cons, List.not_mem_nil, or_false, not_or] at hr
    rw [State.raise_x, enteredPart_x _ hr.2, if_neg hr.1]
    rfl

/-! ## The return from an interrupt -/

/-- Pops into registers neither read nor write PC. -/
theorem poppedAll_setPc (rs : List Reg) (s : State) (v : Byte) :
    poppedAll rs (s.setPc v) = (poppedAll rs s).setPc v := by
  induction rs generalizing s with
  | nil => rfl
  | cons r rest ih => exact ih (popped r s)

theorem returnedFlags_setPc (s : State) (v : Byte) : returnedFlags (s.setPc v) = (returnedFlags s).setPc v := by
  simp only [returnedFlags, poppedAll_setPc]
  generalize poppedAll returnOrder s = t
  rfl

/-- The return that succeeds does not depend on the PC it starts from. -/
theorem returned_setPc (s : State) (v : Byte) : returned (s.setPc v) = returned s := by
  simp only [returned, returnedFlags_setPc]
  generalize returnedFlags s = t
  rfl

theorem exec_iret_ok {s : State} (h : (s.x .r7).toNat ≤ 246 ∨ s.wraps) : exec .iret s = .next (returned s) := by
  refine (settle_eq _).trans ?_
  rw [interruptReturn_ok (s := s.begun .iret) h, State.begun, returned_setPc]
  rfl

/-- The return writes registers, FL, PC and IE only. -/
theorem returned_frame (s : State) : Frame { s with fl := (returned s).fl, ie := true } (returned s)
    [.r0, .r1, .r2, .r3, .r4, .r5, .r6, .r7] [] := by
  have hrest := returned_rest s
  generalize returned s = t at hrest
  exact .of_rest (by rw [hrest]) (fun r hr => absurd (by cases r <;> decide) hr) fun a _ => by rw [hrest]; rfl

/-- Settles O33: each register of the return's order holds its byte, and the rest is the return's frame. -/
theorem iretPopsNineBytes : Obligations.IretPopsNineBytes := by
  intro s h sp
  have hx {k : Nat} (hk : k < 7) := returned_x s hk
  exact ⟨_, exec_iret_ok h, (hx (k := 0) (by decide)).trans (congrArg s.load (BitVec.add_zero _)),
    hx (k := 1) (by decide), hx (k := 2) (by decide), hx (k := 3) (by decide), hx (k := 4) (by decide),
    hx (k := 5) (by decide), hx (k := 6) (by decide), returned_fl s, returned_pc s, returned_sp s,
    by rw [returned_rest], returned_frame s⟩

/-- A later register of the return's order is not among the first `n`. -/
theorem returnOrder_not_mem_take {n k : Nat} (hk : k < 7) (h : n ≤ k) : returnOrder[k]'hk ∉ returnOrder.take n := by
  intro hmem
  obtain ⟨j, hj, he⟩ := List.mem_take_iff_getElem.1 hmem
  have hnodup : returnOrder.Nodup := by decide
  have hjk : j = k := (hnodup.getElem_inj_iff).1 he
  omega

theorem returnOrder_ne_r7 {k : Nat} (hk : k < 7) : returnOrder[k]'hk ≠ .r7 := fun e =>
  absurd (e ▸ List.getElem_mem hk : Reg.r7 ∈ returnOrder) (by decide)

theorem r7_not_mem_take (n : Nat) : Reg.r7 ∉ returnOrder.take n := fun h =>
  absurd (List.mem_of_mem_take h) (by decide)

/-- The registers after the first `n` pops of the return. -/
theorem poppedAll_take_x (n : Nat) (s : State) {k : Nat} (hk : k < 7) :
    (poppedAll (returnOrder.take n) s).x (returnOrder[k]'hk) =
      if k < n then s.load (s.x .r7 + BitVec.ofNat 8 k) else s.x (returnOrder[k]'hk) := by
  by_cases h : k < n
  · have hlen : k < (returnOrder.take n).length := by
      rw [List.length_take]; exact Nat.lt_min.2 ⟨h, hk⟩
    have hnodup : (returnOrder.take n).Nodup := (List.take_sublist _ _).nodup (by decide)
    rw [if_pos h, ← poppedAll_x s hnodup (r7_not_mem_take n) k hlen, List.getElem_take]
    rfl
  · rw [if_neg h, poppedAll_x_other s (returnOrder_not_mem_take hk (Nat.le_of_not_lt h)) (returnOrder_ne_r7 hk)]

/-- The return from SP above 247 stops in its first seven pops or at FL's. -/
theorem interruptReturn_fault {s : State} (h : 247 < (s.x .r7).toNat) (hp : s.checked) :
    interruptReturn s =
      .error ((poppedAll (returnOrder.take (255 - (s.x .r7).toNat)) s).raise (.boundsFault .stackPop)) := by
  by_cases h8 : (s.x .r7).toNat = 248
  · have hall : returnOrder.take (255 - (s.x .r7).toNat) = returnOrder := by rw [h8]; rfl
    have hsp : (poppedAll returnOrder s).x .r7 = 0xFF := by
      rw [poppedAll_sp s (by decide), (BitVec.eq_of_toNat_eq h8 : s.x .r7 = 248)]; rfl
    rw [interruptReturn, popAll_ok (by decide) (.inl (by rw [h8]; decide)), Raising.ok_bind,
      pop_fault hsp (by rw [poppedAll_config]; exact hp), hall]
    rfl
  · rw [interruptReturn, popAll_fault (by decide) (by rw [show returnOrder.length = 7 from rfl]; omega) hp]
    rfl

/-- The return from SP 247 stops at PC's pop. -/
theorem interruptReturn_fault_at_pc {s : State} (h : (s.x .r7).toNat = 247) (hp : s.checked) :
    interruptReturn s = .error ((returnedFlags s).raise (.boundsFault .stackPop)) := by
  have h7 : s.x .r7 = 247 := BitVec.eq_of_toNat_eq h
  have hsp : (poppedAll returnOrder s).x .r7 ≠ 0xFF := by
    rw [poppedAll_sp s (by decide), h7]; decide
  have hsp' : (returnedFlags s).x .r7 = 0xFF := by rw [returnedFlags_sp, h7]; rfl
  have hp' : (returnedFlags s).checked := by rw [State.checked, returnedFlags_config]; exact hp
  rw [interruptReturn, popAll_ok (by decide) (.inl (by rw [h]; decide)), Raising.ok_bind, pop_ok (.inl hsp),
    Raising.ok_bind]
  exact congrArg (· >>= _) (pop_fault hsp' hp')

/-- What the pops that fit have left when a return from SP above 246 stops: `done` of them, of which the eighth is
FL's. -/
structure PartialReturn (done : Nat) (s q : State) : Prop where
  sp : q.x .r7 = 0xFF
  x : ∀ k, (hk : k < 7) → q.x (returnOrder[k]'hk) =
    if k < done then s.load (s.x .r7 + BitVec.ofNat 8 k) else s.x (returnOrder[k]'hk)
  fl : q.fl = if done = 8 then s.load 0xFE else s.fl
  rest : q = { s with regs := q.regs, fl := q.fl }

/-- The stop in the first seven pops or at FL's. -/
theorem PartialReturn.before_pc {s : State} (h : 247 < (s.x .r7).toNat) :
    PartialReturn (255 - (s.x .r7).toNat) s (poppedAll (returnOrder.take (255 - (s.x .r7).toNat)) s) where
  sp := by
    have hlt := (s.x .r7).isLt
    have hlen : (returnOrder.take (255 - (s.x .r7).toNat)).length = 255 - (s.x .r7).toNat :=
      List.length_take_of_le (by rw [show returnOrder.length = 7 from rfl]; omega)
    rw [poppedAll_sp s (r7_not_mem_take _), hlen]
    apply BitVec.eq_of_toNat_eq
    rw [BitVec.toNat_add, BitVec.toNat_ofNat, show (0xFF : Byte).toNat = 255 from rfl]
    omega
  x k hk := poppedAll_take_x _ s hk
  fl := by rw [if_neg (by omega), poppedAll_rest]
  rest := by
    have hrest := poppedAll_rest (returnOrder.take (255 - (s.x .r7).toNat)) s
    generalize poppedAll (returnOrder.take (255 - (s.x .r7).toNat)) s = t at hrest
    rw [hrest]

/-- The stop at PC's pop. -/
theorem PartialReturn.at_pc {s : State} (h : (s.x .r7).toNat = 247) :
    PartialReturn 8 s (returnedFlags s) where
  sp := by rw [returnedFlags_sp, (BitVec.eq_of_toNat_eq h : s.x .r7 = 247)]; rfl
  x k hk := by
    rw [returnedFlags_x s (returnOrder_ne_r7 hk)]
    exact poppedAll_take_x 8 s hk
  fl := by rw [returnedFlags_fl, (BitVec.eq_of_toNat_eq h : s.x .r7 = 247)]; rfl
  rest := returnedFlags_rest s

/-- IRET from SP above 246 under the fault policy, PC being its own address at the raise. -/
theorem exec_iret_fault {s : State} (h : 246 < (s.x .r7).toNat) (hp : s.checked) :
    ∃ q, exec .iret s = .next ((q.setPc (s.ownAddress .iret)).raise (.boundsFault .stackPop)) ∧
      PartialReturn (255 - (s.x .r7).toNat) s q := by
  have hexec : exec .iret s = .next (finalState (interruptReturn (s.begun .iret))) := settle_eq _
  by_cases h7 : (s.x .r7).toNat = 247
  · refine ⟨returnedFlags s, ?_, by rw [h7]; exact .at_pc h7⟩
    rw [hexec, interruptReturn_fault_at_pc (s := s.begun .iret) h7 hp, State.begun, returnedFlags_setPc]
    rfl
  · have h8 : 247 < (s.x .r7).toNat := by omega
    refine ⟨_, ?_, .before_pc h8⟩
    rw [hexec, interruptReturn_fault (s := s.begun .iret) h8 hp, State.begun_x, State.begun, poppedAll_setPc]
    rfl

/-- Settles O34: the pops that fit stay; the raise itself changes RUN and FAULT only. -/
theorem iretStackFault : Obligations.IretStackFault := by
  intro s h hp done
  obtain ⟨q, hexec, hpart⟩ := exec_iret_fault h hp
  refine ⟨_, hexec, rfl, rfl, rfl, hpart.sp, fun k hk => ?_, hpart.fl, .of_rest ?_ (fun r hr => ?_) fun a _ => ?_⟩
  · rw [trunc8_add]
    exact hpart.x k hk
  · rw [hpart.rest]; rfl
  · exact absurd (by cases r <;> decide) hr
  · rw [hpart.rest]; rfl

/-! ## A full interrupt cycle -/

/-- The nine saved bytes from the new SP up: the frame's values, last first. -/
theorem entered_byte (s : State) {k : Nat} (h : k < 9) :
    (entered s).load ((entered s).x .r7 + BitVec.ofNat 8 k) =
      [s.pc, s.fl, s.x .r0, s.x .r1, s.x .r2, s.x .r3, s.x .r4, s.x .r5, 0].getD (8 - k) 0 := by
  have haddr : s.x .r7 - 9 + BitVec.ofNat 8 k = s.x .r7 - BitVec.ofNat 8 (8 - k + 1) := by
    have hlt := (s.x .r7).isLt
    apply BitVec.eq_of_toNat_eq
    rw [BitVec.toNat_add, toNat_sub_byte, toNat_sub_byte, BitVec.toNat_ofNat, BitVec.toNat_ofNat,
      show (9 : Byte).toNat = 9 from rfl]
    omega
  rw [entered_sp, haddr, entered_cell s (by omega)]

/-- Settles O35: IRET pops the bytes that entry saved, read from the new SP up. -/
theorem interruptCycleRestoresProgram : Obligations.InterruptCycleRestoresProgram := by
  intro s h
  refine ⟨_, interruptEntry_ok h, fun u husp huconfig hucells => ?_⟩
  have hconfig : u.config = s.config := huconfig.trans (by rw [entered_rest])
  have hroom : (u.x .r7).toNat ≤ 246 ∨ u.wraps := by
    rw [husp, entered_sp, State.wraps, hconfig]
    refine h.imp_left fun h9 => ?_
    have hlt := (s.x .r7).isLt
    rw [toNat_sub_byte, show (9 : Byte).toNat = 9 from rfl]
    omega
  have hbyte {k : Nat} (hk : k < 9) : u.load (u.x .r7 + BitVec.ofNat 8 k) =
      [s.pc, s.fl, s.x .r0, s.x .r1, s.x .r2, s.x .r3, s.x .r4, s.x .r5, 0].getD (8 - k) 0 := by
    rw [husp, hucells k hk, entered_byte s hk]
  obtain ⟨v, hv, h6, h5, h4, h3, h2, h1, h0, hfl, hpc, hsp, hie, hframe⟩ := iretPopsNineBytes u hroom
  obtain ⟨-, hmem, -, -, hrun, hfault, -⟩ := hframe
  refine ⟨v, hv, hpc.trans (hbyte (k := 8) (by decide)), hfl.trans (hbyte (k := 7) (by decide)), fun r hr => ?_, ?_,
    hie, hrun, hfault, fun a => hmem a List.not_mem_nil⟩
  · cases r with
    | r0 => exact h0.trans (hbyte (k := 6) (by decide))
    | r1 => exact h1.trans (hbyte (k := 5) (by decide))
    | r2 => exact h2.trans (hbyte (k := 4) (by decide))
    | r3 => exact h3.trans (hbyte (k := 3) (by decide))
    | r4 => exact h4.trans (hbyte (k := 2) (by decide))
    | r5 => exact h5.trans (hbyte (k := 1) (by decide))
    | r6 => exact absurd rfl hr
    | r7 => rw [hsp, husp, entered_sp]; exact BitVec.sub_add_cancel _ _
  · rw [h6, ← BitVec.add_zero (u.x .r7)]
    exact hbyte (k := 0) (by decide)

end Sys2Proof.Machine
end

section
/-! PROOFS. What a whole step leaves as it was, piece by piece of the state, and the rules over the whole machine that
follow from it (spec/10_state.md R21 to R34, spec/20_memory.md R42, spec/60_exceptions.md R160 to R165). -/

namespace Sys2Proof.Machine

/-! ## Configuration and faults -/

theorem Fault.raisableIn_congr {s t : State} (h : t.config = s.config) (f : Fault) :
    f.raisableIn t ↔ f.raisableIn s := by
  cases f
  case boundsFault => exact Eq.congr_left (congrArg Config.policy h)
  all_goals exact Iff.rfl

/-- What may happen to RUN and FAULT: nothing, a halt where `halts` holds, or a raise. -/
def StatusChange (halts : Prop) (s t : State) : Prop :=
  (t.run = s.run ∧ t.fault = s.fault) ∨ (t.run = false ∧ t.fault = s.fault ∧ halts) ∨
    (t.run = false ∧ ∃ f : Fault, t.fault = some f ∧ f.raisableIn s)

/-! ## The end-of-cycle check -/

/-- The end-of-cycle check changes PC, RUN, FAULT and the latch only (R89). -/
theorem endOfCycle_rest (advanced s : State) : endOfCycle advanced s =
    { s with pc := (endOfCycle advanced s).pc, run := (endOfCycle advanced s).run,
             fault := (endOfCycle advanced s).fault, ovf := false } := by
  obtain ⟨-, -, -, h⟩ | ⟨-, h⟩ := endOfCycle_cases advanced s <;> rw [h] <;> rfl

theorem endOfCycle_ovf (advanced s : State) : (endOfCycle advanced s).ovf = false := by
  rw [endOfCycle_rest]

theorem endOfCycle_status (advanced s : State) :
    ((endOfCycle advanced s).run = s.run ∧ (endOfCycle advanced s).fault = s.fault) ∨
      ((endOfCycle advanced s).run = false ∧ (endOfCycle advanced s).fault = some (.boundsFault .pcOverflow) ∧
        s.config.policy = .fault) := by
  obtain ⟨-, -, hp, h⟩ | ⟨-, h⟩ := endOfCycle_cases advanced s <;> rw [h]
  · exact .inr ⟨rfl, rfl, hp⟩
  · exact .inl ⟨rfl, rfl⟩

/-- A change of status before the end-of-cycle check, and the check. -/
theorem StatusChange.endOfCycle {halts : Prop} {s u : State} (h : StatusChange halts s u)
    (hconfig : u.config = s.config) (advanced : State) : StatusChange halts s (endOfCycle advanced u) := by
  obtain ⟨hrun, hfault⟩ | ⟨hrun, hfault, hp⟩ := endOfCycle_status advanced u
  · rw [StatusChange, hrun, hfault]
    exact h
  · rw [hconfig] at hp
    exact .inr (.inr ⟨hrun, _, hfault, hp⟩)

/-! ## A cycle from the fetch on -/

/-- The opcode byte at PC names this mnemonic (R82). -/
def Decodes (s : State) (op : Op) : Prop := decodeOp s.config.opcodes (s.load s.pc) = some op

/-- What a cycle that fetches in `s` leaves as it was in `t`, piece by piece of the state. -/
structure CycleFrame (s t : State) : Prop where
  config : t.config = s.config
  fl : t.fl = s.fl ∨ Decodes s .cmp ∨ Decodes s .iret
  ie : t.ie = s.ie ∨ (Decodes s .iret ∧ t.ie = true)
  mem : t.mem = s.mem ∨ Decodes s .st ∨ Decodes s .push ∨ Decodes s .call
  memWf : s.mem.wf = true → t.mem.wf = true
  out : t.out = s.out ∨ ∃ (r : Reg) (b : Byte), s.fetchOperands (instrLen (s.load s.pc)) = .ok (r.byte, b) ∧
    ((Decodes s .prn ∧ t.out = s.out ++ [.prn (s.x r)]) ∨ (Decodes s .pra ∧ t.out = s.out ++ [.pra (s.x r)]))
  diag : t.diag = s.diag ∨ (decodeOp s.config.opcodes (s.load s.pc) = none ∧
    t.diag = s.diag ++ [.unknownOpcode (s.load s.pc) s.pc])
  status : StatusChange (Decodes s .hlt) s t

namespace CycleFrame

/-- The end-of-cycle check stays within the frame. -/
theorem endOfCycle {s u : State} (h : CycleFrame s u) (advanced : State) :
    CycleFrame s (endOfCycle advanced u) := by
  have hstatus := h.status.endOfCycle h.config advanced
  have hrest := endOfCycle_rest advanced u
  generalize Machine.endOfCycle advanced u = t at hstatus hrest
  exact
    { config := by rw [hrest]; exact h.config
      fl := by rw [hrest]; exact h.fl
      ie := by rw [hrest]; exact h.ie
      mem := by rw [hrest]; exact h.mem
      memWf := by rw [hrest]; exact h.memWf
      out := by rw [hrest]; exact h.out
      diag := by rw [hrest]; exact h.diag
      status := hstatus }

/-- An unrecognised opcode, after the PC advance. -/
theorem unrecognised {s : State} (hd : decodeOp s.config.opcodes (s.load s.pc) = none) :
    CycleFrame s (Machine.unrecognised (s.load s.pc) s.pc (phaseAdvance (s.load s.pc) s)) := by
  have hadv := phaseAdvance_rest (s.load s.pc) s
  rw [hadv]
  exact
    { config := rfl, fl := .inl rfl, ie := .inl rfl, mem := .inl rfl, memWf := id, out := .inl rfl
      diag := .inr ⟨hd, rfl⟩, status := .inl ⟨rfl, rfl⟩ }

/-- An operand byte beyond memory. -/
theorem operandFetch {s : State} (hp : s.config.policy = .fault) :
    CycleFrame s (s.raise (.boundsFault .operandFetch)) where
  config := rfl
  fl := .inl rfl
  ie := .inl rfl
  mem := .inl rfl
  memWf := id
  out := .inl rfl
  diag := .inl rfl
  status := .inr (.inr ⟨rfl, _, rfl, hp⟩)

/-- An instruction executed after the PC advance, whose frame is known. -/
theorem executed {s u : State} {op : Op} {a b : Byte} (hd : Decodes s op)
    (hops : s.fetchOperands (instrLen (s.load s.pc)) = .ok (a, b))
    (h : ExecFrame (op.instr a b) (phaseAdvance (s.load s.pc) s) u) : CycleFrame s u := by
  have hadv := phaseAdvance_rest (s.load s.pc) s
  rw [hadv] at h
  have hdi : Decodes s (op.instr a b).op := (Op.instr_op op a b).symm ▸ hd
  have hne {o : Op} (hn : ¬ Decodes s o) : (op.instr a b).op ≠ o := fun e => hn (e ▸ hdi)
  refine
    { config := h.config
      fl := ?_
      ie := h.ie.imp_right fun ⟨hop, hie⟩ => ⟨hop ▸ hdi, hie⟩
      mem := ?_
      memWf := h.memWf
      out := ?_
      diag := .inl h.diag
      status := ?_ }
  · by_contra hno
    simp only [not_or] at hno
    obtain ⟨hfl, hcmp, hiret⟩ := hno
    exact hfl (h.flags (hne hcmp) (hne hiret))
  · by_contra hno
    simp only [not_or] at hno
    obtain ⟨hmem, hst, hpush, hcall⟩ := hno
    exact hmem (h.mem (hne hst) (hne hpush) (hne hcall))
  · obtain hout | ⟨r, hi, hout⟩ | ⟨r, hi, hout⟩ := h.out
    · exact .inl hout
    · obtain rfl : op = .prn := (Op.instr_op op a b).symm.trans (congrArg Instr.op hi)
      obtain rfl := Instr.prn.inj hi
      exact .inr ⟨r, b, hops, .inl ⟨hd, hout⟩⟩
    · obtain rfl : op = .pra := (Op.instr_op op a b).symm.trans (congrArg Instr.op hi)
      obtain rfl := Instr.pra.inj hi
      exact .inr ⟨r, b, hops, .inr ⟨hd, hout⟩⟩
  · obtain hs | ⟨hrun, hfault, hhlt⟩ | ⟨hrun, f, hfault, hf⟩ := h.status
    · exact .inl hs
    · exact .inr (.inl ⟨hrun, hfault, hhlt ▸ hdi⟩)
    · exact .inr (.inr ⟨hrun, f, hfault, (f.raisableIn_congr rfl).1 hf⟩)

/-- However the cycle ends. -/
theorem ofCycleEnd {s t : State} (h : CycleEnd s t) : CycleFrame s t := by
  cases h with
  | unrecognised hd ht => rw [ht]; exact (unrecognised hd).endOfCycle _
  | operandFetch op hd hp ht => rw [ht]; exact operandFetch hp
  | executed op a b u hd hops hu ht =>
    obtain ⟨u', hu', frame⟩ := exec_frame (op.instr a b) (phaseAdvance (s.load s.pc) s)
    obtain rfl : u = u' := Host.Outcome.next.inj (hu.symm.trans hu')
    rw [ht]
    exact (executed hd hops frame).endOfCycle _

end CycleFrame

/-- No overflow is outstanding after a cycle (R33). -/
theorem CycleEnd.ovf {s t : State} (h : CycleEnd s t) (hs : s.ovf = false) : t.ovf = false := by
  cases h with
  | unrecognised hd ht => rw [ht, endOfCycle_ovf]
  | operandFetch op hd hp ht => rw [ht]; exact hs
  | executed op a b u hd hops hu ht => rw [ht, endOfCycle_ovf]

/-! ## The step -/

/-- The three ways a step can go, with what each leaves as it was: a stopped machine stays; interrupt entry overruns
the stack; or the cycle fetches. -/
theorem step_frame {s t : State} (h : step s = .next t) :
    (s.run = false ∧ t = s) ∨
      (s.run = true ∧ CheckFrame (s.setOvf false) t ∧ t.run = false ∧
        t.fault = some (.boundsFault .stackPush) ∧ s.config.policy = .fault) ∨
      (∃ s', FetchesIn s s' ∧ CycleFrame s' t ∧ t.ovf = false) := by
  obtain ⟨hrun, hstep⟩ | ⟨t', hrun, hcheck, hstep⟩ | ⟨s', t', hfetch, hstep, hend⟩ := step_cases s
  · exact .inl ⟨hrun, Host.Outcome.next.inj (h.symm.trans hstep)⟩
  · obtain rfl : t = t' := Host.Outcome.next.inj (h.symm.trans hstep)
    obtain ⟨u, hu, -⟩ | ⟨u, hu, hframe⟩ := interruptCheck_cases (s.setOvf false)
    · rw [hcheck] at hu; cases hu
    · rw [hcheck] at hu; cases hu; exact .inr (.inl ⟨hrun, hframe⟩)
  · obtain rfl : t = t' := Host.Outcome.next.inj (h.symm.trans hstep)
    obtain ⟨-, -, -, -, -, -, -, hovf, -⟩ := fetchesIn_frame hfetch
    exact .inr (.inr ⟨s', hfetch, .ofCycleEnd hend, hend.ovf hovf⟩)

theorem step_next (s : State) : ∃ t, step s = .next t := by
  obtain ⟨-, hstep⟩ | ⟨t, -, -, hstep⟩ | ⟨-, t, -, hstep, -⟩ := step_cases s <;> exact ⟨_, hstep⟩

/-- A mnemonic decoded where the cycle fetches is executed by the step. -/
theorem Decodes.executes {s s' : State} {op : Op} (h : Decodes s' op) (hfetch : FetchesIn s s') :
    Executes s op := by
  obtain ⟨hconfig, -⟩ := fetchesIn_frame hfetch
  exact ⟨_, ⟨s', hfetch, rfl⟩, hconfig ▸ h⟩

/-! ## What changes what -/

/-- Settles O48: a step always answers, and each of its three ways keeps the configuration. -/
theorem everyStepAnswersAndKeepsConfig : Obligations.EveryStepAnswersAndKeepsConfig := by
  intro s
  obtain ⟨t, ht⟩ := step_next s
  refine ⟨t, ht, ?_⟩
  obtain ⟨-, rfl⟩ | ⟨-, hcheck, -⟩ | ⟨s', hfetch, hcycle, -⟩ := step_frame ht
  · rfl
  · exact hcheck.config
  · obtain ⟨hconfig, -⟩ := fetchesIn_frame hfetch
    exact hcycle.config.trans hconfig

/-- Settles O42: outside the executed instruction no phase writes FL. -/
theorem onlyCmpAndIretChangeFlags : Obligations.OnlyCmpAndIretChangeFlags := by
  intro s t ht hne
  obtain ⟨-, rfl⟩ | ⟨-, hcheck, -⟩ | ⟨s', hfetch, hcycle, -⟩ := step_frame ht
  · exact absurd rfl hne
  · exact absurd hcheck.fl hne
  · obtain ⟨-, -, -, -, hfl, -⟩ := fetchesIn_frame hfetch
    obtain h | h | h := hcycle.fl
    · exact absurd (h.trans hfl) hne
    · exact .inl (h.executes hfetch)
    · exact .inr (h.executes hfetch)

/-- Settles O43: the interrupt check clears IE only when it takes an interrupt, and an instruction only sets it. -/
theorem onlyIretEnablesInterrupts : Obligations.OnlyIretEnablesInterrupts := by
  intro s t ht
  obtain ⟨-, rfl⟩ | ⟨hrun, hcheck, -⟩ | ⟨s', hfetch, hcycle, -⟩ := step_frame ht
  · exact ⟨fun h0 h1 => absurd (h0.symm.trans h1) (by decide), fun h1 h0 => absurd (h0.symm.trans h1) (by decide)⟩
  · refine ⟨fun h0 h1 => absurd ((hcheck.ie h0).symm.trans h1) (by decide), fun h1 h0 => ?_⟩
    obtain ⟨hie, hpending⟩ | ⟨-, hie⟩ := hcheck.idle
    · exact ⟨hrun, hie, hpending⟩
    · exact absurd (h0.symm.trans (hie.trans h1)) (by decide)
  · obtain ⟨-, -, -, -, -, -, -, -, -, htaken, hstays⟩ := fetchesIn_frame hfetch
    constructor
    · intro h0 h1
      obtain h | ⟨hiret, -⟩ := hcycle.ie
      · exact absurd ((h.trans (hstays h0)).symm.trans h1) (by decide)
      · exact hiret.executes hfetch
    · intro h1 h0
      obtain htaken | ⟨-, hie⟩ := htaken
      · exact htaken
      · obtain h | ⟨-, h⟩ := hcycle.ie
        · exact absurd (h0.symm.trans (h.trans (hie.trans h1))) (by decide)
        · exact absurd (h0.symm.trans h) (by decide)

/-- Settles O44: the interrupt check writes memory only when it takes an interrupt, and only three instructions do. -/
theorem onlyStoresChangeMemory : Obligations.OnlyStoresChangeMemory := by
  intro s t a ht hne
  have hmem : t.mem ≠ s.mem := fun e => hne (congrArg (Memory.read · a) e)
  obtain ⟨-, rfl⟩ | ⟨hrun, hcheck, -⟩ | ⟨s', hfetch, hcycle, -⟩ := step_frame ht
  · exact absurd rfl hmem
  · obtain ⟨hie, hpending⟩ | ⟨h, -⟩ := hcheck.idle
    · exact .inr (.inr (.inr ⟨hrun, hie, hpending⟩))
    · exact absurd h hmem
  · obtain ⟨-, -, -, -, -, -, -, -, -, htaken | ⟨h', -⟩, -⟩ := fetchesIn_frame hfetch
    · exact .inr (.inr (.inr htaken))
    · obtain h | h | h | h := hcycle.mem
      · exact absurd (h.trans h') hmem
      · exact .inl (h.executes hfetch)
      · exact .inr (.inl (h.executes hfetch))
      · exact .inr (.inr (.inl (h.executes hfetch)))

/-- Settles O45, by the frame every instruction has. -/
theorem instructionsChangeNamedRegisters : Obligations.InstructionsChangeNamedRegisters := by
  intro i s r hr
  obtain ⟨t, ht, frame⟩ := exec_frame i s
  exact ⟨t, ht, frame.regs r hr⟩

/-- A first operand byte that the instruction has is the byte after its opcode byte (R83). -/
theorem fetchOperands_fst {s : State} {len : Nat} {a b : Byte} (hlen : 1 < len)
    (h : s.fetchOperands len = .ok (a, b)) : a = s.load (s.pc + 1) := by
  by_cases hin : s.pc.toNat + 1 ≤ 0xFF ∨ s.config.policy = .wrap
  · have hfirst : s.operand len 1 = .ok (s.load (s.pc + 1)) := by
      rw [State.operand, if_pos hlen, fetchOperand_ok hin]
      rfl
    rw [State.fetchOperands, hfirst] at h
    obtain ⟨v, hv⟩ | ⟨-, hv⟩ := operand_cases s len 2
    · rw [hv] at h; cases h; rfl
    · rw [hv] at h; cases h
  · rw [not_or] at hin
    have hp := (policy_cases s).resolve_right hin.2
    rw [State.fetchOperands, State.operand, if_pos hlen, fetchOperand_fault (Nat.lt_of_not_le hin.1) hp] at h
    cases h

/-- The length that the opcode byte of a recognised mnemonic gives, under a legal map. -/
theorem Decodes.instrLen {s : State} {op : Op} (h : Decodes s op) (hm : s.config.opcodes.legal = true) :
    instrLen (s.load s.pc) = op.cnt + 1 := by
  rw [← decodeOp_some h, Sys2Proof.instrLen, (OpcodeMap.legal_fields hm op).1]

/-- Settles O47: only PRN and PRA append to the output port, and only an unrecognised opcode to the diagnostic one. -/
theorem portsOnlyGrowByOneEvent : Obligations.PortsOnlyGrowByOneEvent := by
  intro s t hm ht
  obtain ⟨-, rfl⟩ | ⟨-, hcheck, -⟩ | ⟨s', hfetch, hcycle, -⟩ := step_frame ht
  · exact ⟨.inl rfl, .inl rfl⟩
  · exact ⟨.inl hcheck.out, .inl hcheck.diag⟩
  · obtain ⟨hconfig, -, hdiag, hout, -⟩ := fetchesIn_frame hfetch
    have hreg {r : Reg} {b : Byte} {op : Op} (hop : Decodes s' op) (hcnt : op.cnt = 1)
        (hops : s'.fetchOperands (instrLen (s'.load s'.pc)) = .ok (r.byte, b)) :
        regOf (s'.load (s'.pc + 1)) = some r := by
      have hlen := hop.instrLen (hconfig ▸ hm)
      rw [← fetchOperands_fst (by omega) hops, regOf_byte]
    rw [← hconfig, ← hout, ← hdiag]
    refine ⟨hcycle.out.imp_right fun ⟨r, b, hops, h⟩ => ⟨s', r, hfetch, ?_, h⟩,
      hcycle.diag.imp_right fun ⟨hd, h⟩ => ⟨s', hfetch, hd, h⟩⟩
    obtain ⟨hop, -⟩ | ⟨hop, -⟩ := h
    · exact hreg hop rfl hops
    · exact hreg hop rfl hops

/-! ## Stopping -/

/-- Settles O49: a step that does not stop leaves FAULT, and stops without one only by a halt. -/
theorem stopIsHaltOrFault : Obligations.StopIsHaltOrFault := by
  intro s t hrun hfault ht
  obtain ⟨hno, -⟩ | ⟨-, -, hstop, hstack, -⟩ | ⟨s', hfetch, hcycle, -⟩ := step_frame ht
  · exact absurd (hrun.symm.trans hno) (by decide)
  · exact ⟨fun h => absurd (hstop.symm.trans h) (by decide), fun _ h => absurd (hstack.symm.trans h) nofun⟩
  · obtain ⟨-, -, -, -, -, hrun', hfault', -⟩ := fetchesIn_frame hfetch
    obtain ⟨hr, hf⟩ | ⟨hr, hf, hhlt⟩ | ⟨hr, f, hf, -⟩ := hcycle.status
    · exact ⟨fun _ => hf.trans (hfault'.trans hfault), fun h => absurd ((hr.trans hrun').symm.trans h) (by decide)⟩
    · exact ⟨fun h => absurd (hr.symm.trans h) (by decide), fun _ _ => hhlt.executes hfetch⟩
    · exact ⟨fun h => absurd (hr.symm.trans h) (by decide), fun _ h => absurd (hf.symm.trans h) nofun⟩

theorem run_succ_of_next {M : Host.Core} {s s' : M.State} (h : M.step s = .next s') (n : Nat) :
    M.run (n + 1) s = M.run n s' := by
  rw [Host.Core.run, h]

/-- Settles O28, by induction on the number of steps. -/
theorem stoppedMachineStays : Obligations.StoppedMachineStays := by
  intro s n hrun
  induction n with
  | zero => rfl
  | succ n ih =>
    have hstep : core.step s = .next s := step_halted hrun
    exact (run_succ_of_next hstep n).trans ih

/-! ## The invariant -/

/-- A change of status, with memory's form and the configuration kept and no overflow outstanding, keeps the
invariant. -/
theorem State.Inv.of_status {s t : State} {halts : Prop} (h : s.Inv) (hstatus : StatusChange halts s t)
    (hconfig : t.config = s.config) (hmem : s.mem.wf = true → t.mem.wf = true) (hovf : t.ovf = false) : t.Inv := by
  have hmemory := hmem h.memory
  have hopcodes : t.config.opcodes.legal = true := hconfig ▸ h.opcodes
  obtain ⟨hrun, hfault⟩ | ⟨hrun, hfault, -⟩ | ⟨hrun, f, hfault, hf⟩ := hstatus
  · exact ⟨hmemory, by rw [hrun, hfault]; exact h.running, by rw [hfault, hconfig]; exact h.bounds,
      by rw [hfault]; exact h.regIndex, hovf, hopcodes⟩
  · exact ⟨hmemory, fun hr => absurd (hrun.symm.trans hr) (by decide), by rw [hfault, hconfig]; exact h.bounds,
      by rw [hfault]; exact h.regIndex, hovf, hopcodes⟩
  · refine ⟨hmemory, fun hr => absurd (hrun.symm.trans hr) (by decide), fun kind hk => ?_, fun b hb => ?_, hovf,
      hopcodes⟩
    · obtain rfl := Option.some.inj (hfault.symm.trans hk)
      rw [hconfig]; exact hf
    · obtain rfl := Option.some.inj (hfault.symm.trans hb)
      exact hf

/-- Settles O51: each way a step can go is a change of status that keeps memory's form and the configuration. -/
theorem invKeptByEveryStep : Obligations.InvKeptByEveryStep := by
  intro s t hinv ht
  obtain ⟨-, rfl⟩ | ⟨-, hcheck, hstop, hstack, hp⟩ | ⟨s', hfetch, hcycle, hovf⟩ := step_frame ht
  · exact hinv
  · exact hinv.of_status (halts := False) (.inr (.inr ⟨hstop, _, hstack, hp⟩)) hcheck.config hcheck.memWf
      hcheck.ovf
  · obtain ⟨hconfig, -, -, -, -, hrun, hfault, hovf', hwf, -⟩ := fetchesIn_frame hfetch
    obtain ⟨hrun0, -⟩ := hfetch
    have hinv' : s'.Inv :=
      hinv.of_status (halts := False) (.inl ⟨hrun.trans hrun0.symm, hfault⟩) hconfig hwf hovf'
    exact hinv'.of_status hcycle.status hcycle.config hcycle.memWf hovf

end Sys2Proof.Machine
end

section
/-! PROOFS. The cycle from the fetch to the end-of-cycle check (spec/40_cycle.md sections 1 and 2). -/

namespace Sys2Proof.Machine

/-! ## The PC advance and the end-of-cycle check -/

/-- Settles O38: the low 8 bits of the sum and its carry, by the definition of the advance. -/
theorem advanceLatchesCarry : Obligations.AdvanceLatchesCarry := fun _ _ _ =>
  ⟨trunc8_toNat _, decide_eq_true_iff, .of_pc rfl⟩

theorem endOfCycle_overflow (u : State) {s : State} (hrun : s.run = true) (hovf : s.ovf = true) (hp : s.checked) :
    endOfCycle u s = ((s.setPc (overflowSum u s)).raise (.boundsFault .pcOverflow)).setOvf false := by
  obtain ⟨-, -, -, h⟩ | ⟨hidle, -⟩ := endOfCycle_cases u s
  · exact h
  · rw [hrun, hovf, hp] at hidle
    exact absurd hidle (by decide)

theorem endOfCycle_idle (u : State) {s : State} (h : s.run = false ∨ s.ovf = false ∨ s.wraps) :
    endOfCycle u s = s.setOvf false := by
  obtain ⟨hrun, hovf, hp, -⟩ | ⟨-, hidle⟩ := endOfCycle_cases u s
  · rw [hrun, hovf, State.wraps, hp] at h
    exact absurd h (by decide)
  · exact hidle

/-- Settles O37: the two ways of the check; latch and raise are updates of different fields. -/
theorem endOfCycleChecksOverflow : Obligations.EndOfCycleChecksOverflow := by
  intro u s
  refine ⟨fun hrun hovf hp => ?_, endOfCycle_idle u⟩
  rw [endOfCycle_overflow u hrun hovf hp]
  exact .raise _ { s with pc := if u.ovf then u.pc else s.pc, ovf := false }

/-! ## The instruction that the bytes at PC decode to -/

/-- Operand bytes taken from two: those within the format's count, 0 for the others. -/
theorem takeOperands_two {n : Nat} {x y a b : Byte} {rest : List Byte}
    (h : takeOperands n [x, y] = some (a, b, rest)) :
    a = (if 1 < n + 1 then x else 0) ∧ b = (if 2 < n + 1 then y else 0) := by
  match n with
  | 0 | 1 | 2 => cases h; exact ⟨rfl, rfl⟩
  | n + 3 => cases h

/-- When the bytes at PC decode and the instruction lies in memory, the cycle decodes the same mnemonic and fetches
the same operand bytes. -/
theorem fetches_decoded {s : State} {i : Instr} {rest : List Byte}
    (hdec : decode s.config.opcodes s.bytesAtPc = .ok (i, rest)) (hfits : s.fits (instrLen (s.load s.pc))) :
    Decodes s i.op ∧ ∃ a b, s.fetchOperands (instrLen (s.load s.pc)) = .ok (a, b) ∧ i = i.op.instr a b := by
  obtain ⟨ir, tail, op, a, b, hbytes, hop, htake, rfl⟩ := decode_ok hdec
  obtain ⟨rfl, rfl⟩ := List.cons.inj hbytes
  obtain ⟨ha, hb⟩ := takeOperands_two htake
  rw [Op.instr_op]
  exact ⟨hop, a, b, by rw [fetchOperands_ok hfits, ha, hb]; rfl, rfl⟩

/-- The opcode byte at PC is that of the instruction decoded, and gives its encoding's length (R61). -/
theorem decoded_byte {s : State} {i : Instr} {rest : List Byte} (hm : s.config.opcodes.legal = true)
    (hdec : decode s.config.opcodes s.bytesAtPc = .ok (i, rest)) :
    s.load s.pc = s.config.opcodes.byte i.op ∧ instrLen (s.load s.pc) = (encode s.config.opcodes i).length := by
  obtain ⟨tail, hbytes, -⟩ := decode_ok_rest hdec
  obtain ⟨hir, -⟩ := List.cons.inj hbytes
  exact ⟨hir, by rw [hir, Laws.EncodeLength.every i _ hm]⟩

/-- A cycle that fetches such an instruction executes it between the PC advance and the end-of-cycle check. -/
theorem fetchAndExecute_decoded {s : State} {i : Instr} {rest : List Byte}
    (hdec : decode s.config.opcodes s.bytesAtPc = .ok (i, rest)) (hfits : s.fits (instrLen (s.load s.pc))) :
    fetchAndExecute s =
      finishCycle (phaseAdvance (s.load s.pc) s) (exec i (phaseAdvance (s.load s.pc) s)) := by
  obtain ⟨hop, a, b, hops, hi⟩ := fetches_decoded hdec hfits
  rw [Decodes] at hop
  simp only [fetchAndExecute, hop, hops, ← hi]

/-- Settles O36: the fetch agrees with the decoder, and the advance is made by bit 4 with the encoding's length. -/
theorem stepRunsDecodedInstruction : Obligations.StepRunsDecodedInstruction := by
  intro s s' i rest hm hfetch hdec hfits u
  obtain ⟨hconfig, -⟩ := fetchesIn_frame hfetch
  rw [← hconfig] at hm hdec hfits
  obtain ⟨hir, hlen⟩ := decoded_byte hm hdec
  have hu : phaseAdvance (s'.load s'.pc) s' = u := by rw [phaseAdvance, hlen, hconfig]
  constructor
  · rw [step_fetches hfetch, fetchAndExecute_decoded hdec (hlen ▸ hfits), hu]
  · rw [← hu, hir, phaseAdvance_ownAddress]

/-! ## An advance that leaves memory -/

/-- An instruction's latch after an advance that overflowed: it stays, or a jump not taken computes the same carry
from the same address. -/
theorem ExecFrame.ovf_of_advance {i : Instr} {s u w : State} {len : Nat} (h : ExecFrame i u w)
    (hu : u.ovf = decide (256 ≤ s.pc.toNat + len)) (hown : u.ownAddress i.op = s.pc) (hlen : len = i.op.cnt + 1)
    (hover : 255 < s.pc.toNat + len) : w.ovf = true := by
  obtain hw | ⟨hop, hw⟩ := h.ovf
  · rw [hw, hu]
    exact decide_eq_true hover
  · have hcnt : i.op.cnt = 1 := by obtain hop | hop := hop <;> rw [hop] <;> rfl
    rw [hw, hown]
    exact decide_eq_true (by omega)

/-- Settles O53: the latch is still set after the instruction, so the end-of-cycle check raises unless the machine has
stopped. -/
theorem overflowingAdvanceStops : Obligations.OverflowingAdvanceStops := by
  intro s s' i rest hm hp hfetch hdec len hfits hbit hover
  obtain ⟨hstep, hown⟩ := stepRunsDecodedInstruction s s' i rest hm hfetch hdec hfits
  rw [hbit, if_neg Bool.false_ne_true] at hstep hown
  obtain ⟨hconfig, -⟩ := fetchesIn_frame hfetch
  obtain ⟨w, hw, hframe⟩ := exec_frame i (s'.advancePc len)
  have hovf : w.ovf = true := hframe.ovf_of_advance rfl hown (encode_length _ i) hover
  have hwp : w.checked := by rw [State.checked, hframe.config, State.advancePc_config, hconfig]; exact hp
  rw [hw] at hstep
  refine ⟨w, _, hw, hstep, fun hstop => endOfCycle_idle _ (.inl hstop), fun hrun => ?_⟩
  have hsum : overflowSum (s'.advancePc len) w = trunc8 (s'.pc.toNat + len) := if_pos (decide_eq_true hover)
  rw [endOfCycle_overflow _ hrun hovf hwp, hsum]
  exact .raise _ { w with pc := trunc8 (s'.pc.toNat + len), ovf := false }

/-! ## Operand bytes beyond memory, and unrecognised opcodes -/

/-- Settles O39: the operand fetch raises before anything else happens. -/
theorem operandBeyondMemoryStops : Obligations.OperandBeyondMemoryStops := by
  intro s s' op hm hp hfetch hop hover
  obtain ⟨hconfig, -⟩ := fetchesIn_frame hfetch
  rw [← hconfig] at hm hop
  have hlen : instrLen (s'.load s'.pc) = op.cnt + 1 := Decodes.instrLen hop hm
  have hle := op.cnt_le_two
  have hops := fetchOperands_fault (s := s') (len := instrLen (s'.load s'.pc)) (by omega) (by omega)
    (by rw [hconfig]; exact hp)
  refine ⟨_, ?_, .raise _ s'⟩
  rw [step_fetches hfetch]
  simp only [fetchAndExecute, hop, hops]

/-- With no overflow outstanding the PC advance is by bits 7 to 6 plus 1 where bit 4 is 0, and by 0 where it is 1
(R84). -/
theorem phaseAdvance_eq_advancePc {s : State} (h : s.ovf = false) (ir : Byte) :
    phaseAdvance ir s = s.advancePc (if ir.toNat / 16 % 2 = 1 then 0 else ir.toNat / 64 + 1) := by
  by_cases hbit : setsPcBit ir = true
  · have hnone : s.advancePc 0 = s := by
      have hpc : trunc8 (s.pc.toNat + 0) = s.pc := (trunc8_add s.pc 0).trans (BitVec.add_zero _)
      have hcarry : decide (256 ≤ s.pc.toNat + 0) = s.ovf := h ▸ decide_eq_false (Nat.not_le.2 s.pc.isLt)
      simp only [State.advancePc, hpc, hcarry]
      rfl
    rw [phaseAdvance, if_pos hbit, if_pos ((setsPcBit_iff_div ir).1 hbit), hnone]
  · rw [phaseAdvance, if_neg hbit, if_neg (fun e => hbit ((setsPcBit_iff_div ir).2 e)), instrLen, cnt_eq_div]

/-- The end of a cycle with an unrecognised opcode whose advance leaves memory under the fault policy. -/
theorem endOfCycle_unrecognised_overflow {s : State} (ir addr : Byte) {n : Nat} (hrun : s.run = true)
    (hsum : 255 < s.pc.toNat + n) (hp : s.checked) :
    endOfCycle (s.advancePc n) (unrecognised ir addr (s.advancePc n)) =
      (((s.report (.unknownOpcode ir addr)).setPc (trunc8 (s.pc.toNat + n))).raise
        (.boundsFault .pcOverflow)).setOvf false := by
  have hpc : overflowSum (s.advancePc n) (unrecognised ir addr (s.advancePc n)) = trunc8 (s.pc.toNat + n) :=
    if_pos (decide_eq_true hsum)
  rw [endOfCycle_overflow (s := unrecognised ir addr (s.advancePc n)) _ hrun (decide_eq_true hsum) hp, hpc]
  rfl

/-- The end of a cycle with an unrecognised opcode whose advance stays in memory, or wraps. -/
theorem endOfCycle_unrecognised_idle {s : State} (ir addr : Byte) {n : Nat}
    (h : s.pc.toNat + n ≤ 255 ∨ s.wraps) :
    endOfCycle (s.advancePc n) (unrecognised ir addr (s.advancePc n)) =
      ((s.report (.unknownOpcode ir addr)).setPc (trunc8 (s.pc.toNat + n))).setOvf false := by
  have hidle : (s.advancePc n).ovf = false ∨ s.wraps :=
    h.imp_left fun hle => decide_eq_false (Nat.not_le.2 (Nat.lt_succ_of_le hle))
  rw [endOfCycle_idle (s := unrecognised ir addr (s.advancePc n)) _ (.inr hidle)]
  rfl

/-- Settles O40: the report after the advance, and the end-of-cycle check by the carry and the policy. -/
theorem unrecognisedOpcodeIsReported : Obligations.UnrecognisedOpcodeIsReported := by
  intro s s' hfetch hnone ir n
  obtain ⟨hconfig, -, -, -, -, hrun, -, hovf, -⟩ := fetchesIn_frame hfetch
  have hadv : phaseAdvance ir s' = s'.advancePc n := phaseAdvance_eq_advancePc hovf ir
  have hstep : step s = .next (endOfCycle (s'.advancePc n) (unrecognised ir s'.pc (s'.advancePc n))) := by
    rw [← hconfig] at hnone
    rw [step_fetches hfetch, ← hadv]
    simp only [fetchAndExecute, hnone]
    rfl
  by_cases hover : 255 < s'.pc.toNat + n ∧ s'.checked
  · obtain ⟨hsum, hp⟩ := hover
    rw [endOfCycle_unrecognised_overflow ir s'.pc hrun hsum hp] at hstep
    refine ⟨_, hstep, rfl, trunc8_toNat _, fun hin => ?_, fun _ _ => .of_pc_latch hovf rfl⟩
    obtain hle | hwraps := hin
    · exact absurd hsum (Nat.not_lt.2 hle)
    · exact absurd (hp.symm.trans hwraps) (by decide)
  · have hin : s'.pc.toNat + n ≤ 255 ∨ s'.wraps := by
      rw [not_and_or, Nat.not_lt] at hover
      exact hover.imp_right (policy_cases s').resolve_left
    rw [endOfCycle_unrecognised_idle ir s'.pc hin] at hstep
    exact ⟨_, hstep, rfl, trunc8_toNat _, fun _ => .of_pc_latch hovf rfl,
      fun hsum hp => absurd ⟨hsum, hp⟩ hover⟩

end Sys2Proof.Machine
end
